-- ==== Sys2Proof/Word.lean ====
section
/-! DEFINITION. The data widths of the engine (R6, R9 of 00_scope.md): a byte, a 32-bit word and the 64-bit bit
counter. `+` and `-` on these types wrap modulo 2^8, 2^32 and 2^64, which is `+32`, `+64`, `-64` of R10. -/

namespace Sys2Proof

/-- A byte: 8 bits, unsigned (R9). -/
abbrev Byte := BitVec 8

/-- A word: 32 bits, unsigned (R9). -/
abbrev Word := BitVec 32

/-- A bit count: 64 bits, unsigned, every operation modulo 2^64 (R6, R10, R24). -/
abbrev Counter := BitVec 64

end Sys2Proof
end

