-- ==== Sys2Proof/Config.lean ====
section
/-! DEFINITION. The fixed parameters of the engine (R6, R8 of 00_scope.md). None is configurable and none is left
open, so this file holds no opaque constant and no free value. -/

namespace Sys2Proof.Config

/-- Bytes of a command header (R8, R70). -/
@[simp] def headerBytes : Nat := 4

/-- The greatest payload a header can announce: `LEN` has 16 bits (R8, R70). -/
@[simp] def maxPayload : Nat := 65535

/-- Bytes of a block (R6). -/
@[simp] def blockBytes : Nat := 64

/-- The only salt length accepted, in bytes (R6, R161). -/
@[simp] def saltBytes : Nat := 16

/-- Rounds of one compression (R6, R107). -/
@[simp] def rounds : Nat := 14

/-- Bits the counter advances by at each compression (R6, R102). -/
@[simp] def counterStep : Counter := 512

end Sys2Proof.Config
end

