-- ==== Sys2Proof/Machine/Bytes.lean ====
section
/-! DEFINITION. Byte order and rotation: everything is big-endian, the first byte is the most significant one (R52
of 20_memory.md, R10 of 00_scope.md). -/

namespace Sys2Proof.Machine

/-- `be32(b0, b1, b2, b3)`, first byte most significant (R10). -/
def be32 (b0 b1 b2 b3 : Byte) : Word := b0 ++ b1 ++ b2 ++ b3

/-- `be32bytes(w)`: the four bytes of a word, most significant first (R10). -/
def be32bytes (w : Word) : List Byte :=
  [w.extractLsb' 24 8, w.extractLsb' 16 8, w.extractLsb' 8 8, w.extractLsb' 0 8]

/-- `hi32(t)` of a 64-bit value (R10). -/
def hi32 (t : Counter) : Word := t.extractLsb' 32 32

/-- `lo32(t)` of a 64-bit value (R10). -/
def lo32 (t : Counter) : Word := t.extractLsb' 0 32

/-- `be64bytes(x)`: the eight bytes of a 64-bit value, most significant first (R10, R55). -/
def be64bytes (x : Counter) : List Byte := be32bytes (hi32 x) ++ be32bytes (lo32 x)

/-- `rotr32(x, n)`, right rotation of a word (R10). -/
def rotr32 (x : Word) (n : Nat) : Word := x.rotateRight n

/-- `be32` of the four bytes of `bytes` that start at index `i`. Every caller asks for indices the sequence has; an
index beyond its end would read as 0 (log entry 8). -/
def wordAt (bytes : List Byte) (i : Nat) : Word :=
  be32 (bytes.getD i 0) (bytes.getD (i + 1) 0) (bytes.getD (i + 2) 0) (bytes.getD (i + 3) 0)

end Sys2Proof.Machine
end

