-- ==== Sys2Proof/Syntax.lean ====
section
/-! DEFINITION. The commands of the engine, one constructor for each row of opcode_table.json (R73 of
30_encoding.md). -/

namespace Sys2Proof

/-- A command with its operand. The operand, where there is one, is the payload of the packet (R77); its length is
the header's `LEN`, and the flags `SALT` and `W224` are told by the constructor (R73). -/
inductive Instr where
  /-- INIT256: construct, width 256, salt absent (R140). -/
  | init256
  /-- INIT224: construct, width 224, salt absent (R140). -/
  | init224
  /-- INIT256.S: construct, width 256, salt supplied as the payload, of any length (R141, R74). -/
  | init256S (salt : List Byte)
  /-- INIT224.S: construct, width 224, salt supplied as the payload, of any length (R141, R74). -/
  | init224S (salt : List Byte)
  /-- UPDATE: append the payload to the message (R90). -/
  | update (bytes : List Byte)
  /-- FINAL: append the digest of the message so far to `OUT` (R120). -/
  | final
  /-- RESET: start a new message with the same width and salt (R146). -/
  | reset
deriving DecidableEq, Repr

/-- The payload of a command's packet (R73, R77): empty where the table says none. -/
def Instr.payload : Instr → List Byte
  | .init256 => []
  | .init224 => []
  | .init256S p => p
  | .init224S p => p
  | .update p => p
  | .final => []
  | .reset => []

end Sys2Proof
end

