-- ==== Sys2Proof/WellFormed.lean ====
section
/-! DEFINITION. Which terms of `Instr` have an encoding: the payload's length must fit the 16 bits of `LEN` (R70,
R71 of 30_encoding.md). A salt of a length other than 16 is well-formed: it has an encoding, and the command then
raises a fault (R74). -/

namespace Sys2Proof

/-- A payload fits the `LEN` field: `0 <= LEN <= 65535` (R70). -/
def payloadFits (p : List Byte) : Bool := decide (p.length ≤ Config.maxPayload)

/-- The commands that an encoding exists for (R70, R73). -/
def Instr.wellFormed : Instr → Bool
  | .init256 => true
  | .init224 => true
  | .init256S p => payloadFits p
  | .init224S p => payloadFits p
  | .update p => payloadFits p
  | .final => true
  | .reset => true

end Sys2Proof
end

