-- ==== Sys2Proof/Decode.lean ====
section
/-! DEFINITION. Command encoding (30_encoding.md): the decoder, total on any byte string, and after it the encoder
and the layout of a word of opcode_table.json. -/

namespace Sys2Proof

/-! ## Header fields (R71) -/

/-- `OPC`, bits 31:24 of the header (R71). -/
def opcField (hdr : Word) : BitVec 8 := hdr.extractLsb' 24 8

/-- `RSV`, bits 23:18 of the header (R71). -/
def rsvField (hdr : Word) : BitVec 6 := hdr.extractLsb' 18 6

/-- `SALT`, bit 17 of the header (R71). -/
def saltField (hdr : Word) : BitVec 1 := hdr.extractLsb' 17 1

/-- `W224`, bit 16 of the header (R71). -/
def w224Field (hdr : Word) : BitVec 1 := hdr.extractLsb' 16 1

/-- `LEN`, bits 15:0 of the header (R71). -/
def lenField (hdr : Word) : BitVec 16 := hdr.extractLsb' 0 16

/-! ## The opcode table (R73) -/

/-- The rows of the table of R73, by name. -/
inductive Command where
  | init256 | init224 | init256S | init224S | update | final | reset
deriving DecidableEq, Repr

/-- One row of the table of R73: a header selects it when `hdr & mask == pattern`. -/
structure CommandRow where
  /-- The command the row selects. -/
  command : Command
  /-- The table's `match` column. -/
  pattern : Word
  /-- The table's `mask` column. -/
  mask : Word
deriving DecidableEq, Repr

/-- The table of R73. -/
def commandRows : List CommandRow :=
  [ ⟨.init256,  0x01000000, 0xFFFFFFFF⟩,
    ⟨.init224,  0x01010000, 0xFFFFFFFF⟩,
    ⟨.init256S, 0x01020000, 0xFFFF0000⟩,
    ⟨.init224S, 0x01030000, 0xFFFF0000⟩,
    ⟨.update,   0x02000000, 0xFFFF0000⟩,
    ⟨.final,    0x03000000, 0xFFFFFFFF⟩,
    ⟨.reset,    0x04000000, 0xFFFFFFFF⟩ ]

/-- Whether a header selects a row (R73). -/
def CommandRow.selects (row : CommandRow) (hdr : Word) : Bool := hdr &&& row.mask == row.pattern

/-- The command a header selects, or none where the header is reserved (R73, R76). -/
def commandOf (hdr : Word) : Option Command :=
  (commandRows.find? fun row => row.selects hdr).map CommandRow.command

/-- A command with its payload as operand (R77). The rows whose `LEN` must be 0 have no operand. -/
def Command.withPayload : Command → List Byte → Instr
  | .init256, _ => .init256
  | .init224, _ => .init224
  | .init256S, p => .init256S p
  | .init224S, p => .init224S p
  | .update, p => .update p
  | .final, _ => .final
  | .reset, _ => .reset

/-! ## The decoder (R78) -/

/-- What a decoder answers on the bytes available at `PC` (R78). -/
inductive Decoded where
  /-- Fewer than 4 bytes: no header yet (R62). -/
  | headerIncomplete
  /-- The header matches no row: `IllegalCommand`, decided from the header alone (R76, R162). -/
  | reserved
  /-- A command's header, but fewer than `LEN` payload bytes (R62). -/
  | payloadIncomplete
  /-- A command, and the bytes after its packet. -/
  | command (i : Instr) (rest : List Byte)
deriving DecidableEq, Repr

/-- Decodes the rest of a packet, its header known (R78). -/
def decodeAfterHeader (hdr : Word) (rest : List Byte) : Decoded :=
  match commandOf hdr with
  | none => .reserved
  | some c =>
    let len := (lenField hdr).toNat
    if rest.length < len then .payloadIncomplete
    else .command (c.withPayload (rest.take len)) (rest.drop len)

/-- The decode procedure of R78 on the bytes available at `PC`, in its order: header, reserved or not, payload. The
header is big-endian (R57, R71). -/
def decode : List Byte → Decoded
  | b0 :: b1 :: b2 :: b3 :: rest => decodeAfterHeader (Machine.be32 b0 b1 b2 b3) rest
  | _ => .headerIncomplete

/-! ## The encoder (R70, R71, R73) -/

/-- A header put together from its fields, `RSV` zero (R71). -/
def headerWord (opc : BitVec 8) (salt w224 : BitVec 1) (len : Nat) : Word :=
  opc ++ (0 : BitVec 6) ++ salt ++ w224 ++ BitVec.ofNat 16 len

/-- The header of a command (R72, R73). -/
def encodeHeader : Instr → Word
  | .init256 => headerWord 0x01 0 0 0
  | .init224 => headerWord 0x01 0 1 0
  | .init256S p => headerWord 0x01 1 0 p.length
  | .init224S p => headerWord 0x01 1 1 p.length
  | .update p => headerWord 0x02 0 0 p.length
  | .final => headerWord 0x03 0 0 0
  | .reset => headerWord 0x04 0 0 0

/-- The packet of a command: header, most significant byte first, then payload (R57, R70). It is the command's
encoding where the command is well-formed. -/
def encode (i : Instr) : List Byte := Machine.be32bytes (encodeHeader i) ++ i.payload

/-! ## Words of opcode_table.json -/

/-- The packet of an instruction whose bits are `w`, as opcode_table.json numbers them: bits 31:0 are the header
word, stored most significant byte first (R57); payload byte `k` is bits `39+8k : 32+8k`; every bit from `nbits` up
is 0. The payload is laid out to the length the header announces, so it is zeros for the table's 32-bit rows. -/
def layoutTableWord (nbits w : Nat) : List Byte :=
  let v := w % 2 ^ nbits
  let hdr := BitVec.ofNat 32 v
  Machine.be32bytes hdr ++
    (List.range (lenField hdr).toNat).map fun k => BitVec.ofNat 8 (v >>> (32 + 8 * k))

/-- The instruction the decoder reads from a word of opcode_table.json, none where it rejects it. -/
def decodeTableWord (nbits w : Nat) : Option Instr :=
  match decode (layoutTableWord nbits w) with
  | .command i _ => some i
  | _ => none

end Sys2Proof
end

