-- ==== Sys2Proof/Machine/State.lean ====
section
/-! DEFINITION. The state of the engine (10_state.md), the reasons a step does not happen, and the state after
hardware reset (R180 of 70_reset_and_hazards.md). -/

namespace Sys2Proof.Machine

/-- `W`, the output width: one of two values (R21). -/
inductive Width where
  | w256 | w224
deriving DecidableEq, Repr

/-- `ERR`, the fault code: a 2-bit code whose four values are all defined (R31, R160). `Err.code` gives the bits. -/
inductive Err where
  | none | invalidSaltLength | illegalCommand | notConstructed
deriving DecidableEq, Repr

/-- The Digest State, "the only stateful entity" of the document (R20, first six rows). -/
structure Digest where
  /-- `W`, output width (R21). -/
  w : Width
  /-- `H[0..7]`, chain value (R22). -/
  h : Vector Word 8
  /-- `S[0..3]`, salt (R23). -/
  s : Vector Word 4
  /-- `T`, bit counter: bits already compressed (R24). -/
  t : Counter
  /-- `NULLT`, skip-counter flag (R25). -/
  nullt : Bool
  /-- `BUF`, the buffered bytes; `NX` is its length (R26). -/
  buf : List Byte
deriving DecidableEq, Repr

/-- `NX`, the fill count of the input buffer: the length of `BUF`, not a register of its own (R26, D14). -/
def Digest.nx (d : Digest) : Nat := d.buf.length

/-- A byte space addressed by byte offset from 0 (R50): the bytes present, offsets strictly rising. An offset that is
not listed holds no byte: the host has not supplied it. -/
abbrev Memory := List Host.Cell

/-- The engine's whole state (R20), with the command stream beside it (log entry 2). -/
structure State where
  /-- The Digest State, absent while `CFG = 0` (R30, R41); `CFG` is 1 exactly when it is present (`State.cfg`). -/
  digest : Option Digest
  /-- `ERR`, sticky fault code; not `none` means halted (R31). -/
  err : Err
  /-- `PC`, the offset in `CMD` of the next command's header; unbounded (R32). -/
  pc : Nat
  /-- `OUT`, the records in the order of their FINAL commands (R33). -/
  out : List (List Byte)
  /-- `CMD`, the bytes the host has supplied (R50). THE MODEL'S OWN FIELD: the spec calls `CMD` a parameter of the
  run (R20). The engine never writes it (R66). -/
  cmd : Memory
deriving DecidableEq, Repr

/-- Why the engine has no step. Raised by `step` alone, never by the meaning of a command; the three faults of the
spec (R160) are not here: taking one is a next state with `ERR` written (R166). All are safe: the model stops where
the engine has no step. -/
inductive Fault where
  /-- `ERR` is not 0: the engine is halted until hardware reset (R170); the run ended Faulted (R188). Raised by
  `step`. Safe. -/
  | halted
  /-- No byte of `CMD` is left at `PC`: the run ended Final, the good end (R188). Raised by `step`. Safe. -/
  | endOfStream
  /-- The packet at `PC` is incomplete and its header, if complete, is not reserved: the engine waits for the host
  (R62); a run over a fixed `CMD` ended Stuck (R188). Raised by `step`. Safe. -/
  | waiting
deriving DecidableEq, Repr

/-- Instructions without a meaning. -/
inductive Refusal where
  /-- The instruction named has no meaning in the model. Raised by no arm of `exec`: every command has its meaning.
  Safe. -/
  | notModelled (mnemonic : String)
deriving DecidableEq, Repr

/-- What one step or one command answers. -/
abbrev Result := Host.Outcome State Fault Refusal

/-- The state after hardware reset (R39, R180): `CFG = 0` and no Digest State, `ERR = 0`, `PC = 0`, `OUT` empty, and
nothing supplied on `CMD` yet. -/
def State.reset : State :=
  { digest := none, err := .none, pc := 0, out := [], cmd := [] }

end Sys2Proof.Machine
end

