-- ==== Sys2Proof/Machine/Flags.lean ====
section
/-! DEFINITION. The fields that act as control and status, as bits (R34 of 10_state.md), what a width selects (R21,
R122), and what a host observes (R33, D18). The engine has no arithmetic flag: nothing records a carry or an
overflow (R10, R116). -/

namespace Sys2Proof.Machine

/-- `CFG`, the constructed flag: 1 exactly when there is a Digest State (R30). -/
def State.cfg (s : State) : BitVec 1 := if s.digest.isSome then 1 else 0

/-- The 2-bit code of `ERR` (R31, R160). -/
def Err.code : Err → BitVec 2
  | .none => 0
  | .invalidSaltLength => 1
  | .illegalCommand => 2
  | .notConstructed => 3

/-- `ERR != 0`: the engine is halted (R31, R170). -/
def State.isHalted (s : State) : Bool := s.err.code != 0

/-- The one-bit encoding of `W`, the same as header flag `W224` (R21). -/
def Width.flag : Width → BitVec 1
  | .w256 => 0
  | .w224 => 1

/-- The output width in bits (R21). -/
def Width.bits : Width → Nat
  | .w256 => 256
  | .w224 => 224

/-- The digest length `W/8` in bytes (R21). -/
def Width.digestBytes (w : Width) : Nat := w.bits / 8

/-- `domainByte`, the marker of the exact-fit case (R122). -/
def Width.domainByte : Width → Byte
  | .w256 => 0x81
  | .w224 => 0x80

/-- `terminatorByte`, appended after the zero run in the general case (R122). -/
def Width.terminatorByte : Width → Byte
  | .w256 => 0x01
  | .w224 => 0x00

/-- The whole of what a host observes: `OUT`, `ERR`, `CFG` (R33, R34, D18). -/
structure Observation where
  out : List (List Byte)
  err : BitVec 2
  cfg : BitVec 1
deriving DecidableEq, Repr

/-- The host's view of a state at a command boundary (R33, D18). -/
def State.observe (s : State) : Observation := ⟨s.out, s.err.code, s.cfg⟩

end Sys2Proof.Machine
end

