-- ==== Sys2Proof/Machine/Compress.lean ====
section
/-! DEFINITION. The compression function (41_compress.md): `Compress`, the internal operation that UPDATE and FINAL
perform once for each 64-byte block. -/

namespace Sys2Proof.Machine

/-- `ParseBlock`: sixteen big-endian words (R53, R101). The block has 64 bytes. -/
def parseBlock (block : List Byte) : Vector Word 16 :=
  Vector.ofFn fun k => wordAt block (4 * k.val)

/-- `InitWork`, first part: chain value, constants with salt, constants (R103). -/
def initWork (h : Vector Word 8) (s : Vector Word 4) : Vector Word 16 :=
  #v[h[0], h[1], h[2], h[3], h[4], h[5], h[6], h[7],
     roundConst[0] ^^^ s[0], roundConst[1] ^^^ s[1], roundConst[2] ^^^ s[2], roundConst[3] ^^^ s[3],
     roundConst[4], roundConst[5], roundConst[6], roundConst[7]]

/-- `InitWork`, second part: the counter's low half into `v[12], v[13]`, its high half into `v[14], v[15]`, unless the
skip-counter flag is set (R104). -/
def injectCounter (t : Counter) (nullt : Bool) (v : Vector Word 16) : Vector Word 16 :=
  if nullt then v
  else (((v.set 12 (v[12] ^^^ lo32 t)).set 13 (v[13] ^^^ lo32 t)).set 14 (v[14] ^^^ hi32 t)).set 15 (v[15] ^^^ hi32 t)

/-- The four words a G operation works on (R108). -/
structure Quad where
  a : Word
  b : Word
  c : Word
  d : Word
deriving DecidableEq, Repr

/-- The arithmetic of one G operation, in the document's order, on message words `mi = m[i]`, `mj = m[j]` and
constants `ci = C[i]`, `cj = C[j]` (R108). The first message word meets the second constant, and the second message
word the first. -/
def mixG (mi mj ci cj : Word) (q : Quad) : Quad :=
  let a := q.a + (mi ^^^ cj) + q.b
  let d := rotr32 (q.d ^^^ a) 16
  let c := q.c + d
  let b := rotr32 (q.b ^^^ c) 12
  let a := a + (mj ^^^ ci) + b
  let d := rotr32 (d ^^^ a) 8
  let c := c + d
  let b := rotr32 (b ^^^ c) 7
  ⟨a, b, c, d⟩

/-- The two indices `(i, j)` that G operation number `g` takes from permutation row `p` (R109). -/
def mixIndices (p : Fin 10) (g : Fin 8) : Fin 16 × Fin 16 :=
  (sigma[p][2 * g.val], sigma[p][2 * g.val + 1])

/-- `G(v, m, p, g, ia, ib, ic, id)`: G operation number `g` applied in place to `v[ia], v[ib], v[ic], v[id]` (R107,
R108). -/
def applyG (m : Vector Word 16) (p : Fin 10) (g : Fin 8) (ia ib ic id : Fin 16) (v : Vector Word 16) :
    Vector Word 16 :=
  let ij := mixIndices p g
  let q := mixG m[ij.1] m[ij.2] roundConst[ij.1] roundConst[ij.2] ⟨v[ia], v[ib], v[ic], v[id]⟩
  (((v.set ia q.a).set ib q.b).set ic q.c).set id q.d

/-- The four column operations of a round (R107). -/
def columns (m : Vector Word 16) (p : Fin 10) (v : Vector Word 16) : Vector Word 16 :=
  let v := applyG m p 0 0 4 8 12 v
  let v := applyG m p 1 1 5 9 13 v
  let v := applyG m p 2 2 6 10 14 v
  applyG m p 3 3 7 11 15 v

/-- The four diagonal operations of a round (R107). -/
def diagonals (m : Vector Word 16) (p : Fin 10) (v : Vector Word 16) : Vector Word 16 :=
  let v := applyG m p 4 0 5 10 15 v
  let v := applyG m p 5 1 6 11 12 v
  let v := applyG m p 6 2 7 8 13 v
  applyG m p 7 3 4 9 14 v

/-- The permutation row of round `r`, rounds numbered from 1: `(r - 1) mod 10` (R107, R110). -/
def permutationRow (r : Nat) : Fin 10 := ⟨(r - 1) % 10, Nat.mod_lt _ (by decide)⟩

/-- `Round(v, m, r)`: the columns, then the diagonals (R107). -/
def round (m : Vector Word 16) (v : Vector Word 16) (r : Nat) : Vector Word 16 :=
  diagonals m (permutationRow r) (columns m (permutationRow r) v)

/-- Rounds 1 to 14, in that order (R107). -/
def allRounds (m : Vector Word 16) (v : Vector Word 16) : Vector Word 16 :=
  (List.range' 1 Config.rounds).foldl (round m) v

/-- `FeedForward`: `h'[k] = h[k] ^ v[k] ^ v[k+8] ^ s[k mod 4]` (R111). -/
def feedForward (h : Vector Word 8) (s : Vector Word 4) (v : Vector Word 16) : Vector Word 8 :=
  Vector.ofFn fun k => h[k.val] ^^^ v[k.val] ^^^ v[k.val + 8] ^^^ s[k.val % 4]

/-- `Compress(h, s, t, nullt, block) -> (h', t')` (R100). The counter advances before it is used, on every call
(R102). Pure: it reads nothing but its arguments and the tables (R112). -/
def compress (h : Vector Word 8) (s : Vector Word 4) (t : Counter) (nullt : Bool) (block : List Byte) :
    Vector Word 8 × Counter :=
  let t' := t + Config.counterStep
  let v := injectCounter t' nullt (initWork h s)
  (feedForward h s (allRounds (parseBlock block) v), t')

end Sys2Proof.Machine
end

