-- ==== Sys2Proof/Machine/Ops.lean ====
section
/-! DEFINITION. The named operations: the byte space `CMD` (20_memory.md), the updates of the state that commands are
made of, command fetch (R78), taking a fault (R166) and hardware reset (R180). -/

namespace Sys2Proof.Machine

/-! ## The byte space CMD -/

/-- The canonical form of a byte space: offsets strictly rising. An unlisted offset holds no byte, which no entry
can equal. -/
abbrev Memory.wf (m : Memory) : Prop := List.Pairwise (fun c c' : Host.Cell => c.1 < c'.1) m

/-- The byte at an offset, none where the host has supplied none (R50, R62). -/
def Memory.read? (m : Memory) (a : Nat) : Option Byte :=
  (m.find? fun c => c.1 == a).map Prod.snd

/-- The bytes present at `a`, `a+1`, … up to the first offset that holds none: what is available at `a` (R62). -/
def Memory.run : Memory → Nat → List Byte
  | [], _ => []
  | (x, b) :: m, a => if x < a then Memory.run m a else if x = a then b :: Memory.run m (a + 1) else []

/-- `bytes` as the cells from offset `a` on. -/
def cellsFrom : Nat → List Byte → Memory
  | _, [] => []
  | a, b :: bytes => (a, b) :: cellsFrom (a + 1) bytes

/-- Puts `bytes` at the offsets `a`, `a+1`, …, in place of what stood there. -/
def Memory.store (m : Memory) (a : Nat) (bytes : List Byte) : Memory :=
  m.filter (fun c => c.1 < a) ++ cellsFrom a bytes ++ m.filter (fun c => a + bytes.length ≤ c.1)

/-- One past the highest offset that holds a byte: for a stream supplied from offset 0 without a gap, the number of
bytes supplied so far, `avail` of R78. -/
def Memory.avail (m : Memory) : Nat := (m.getLast?.map fun c => c.1 + 1).getD 0

/-- The host appends bytes to the command stream (R50, R66). An event between commands, not a step of the engine. -/
def State.supply (s : State) (bytes : List Byte) : State :=
  { s with cmd := s.cmd.store s.cmd.avail bytes }

/-! ## Updates of the state -/

/-- Writes the Digest State; `CFG` is then 1 (R30). -/
def State.setDigest (s : State) (d : Digest) : State := { s with digest := some d }

/-- `pc <- PC + 4 + LEN`, the end of a completed command (R75). -/
def State.advance (s : State) (len : Nat) : State := { s with pc := s.pc + Config.headerBytes + len }

/-- `Emit(OUT, record)` (R11, R33). -/
def State.emit (s : State) (record : List Byte) : State := { s with out := s.out ++ [record] }

/-! ## Faults and reset -/

/-- `raise F`: `ERR` takes the code and nothing else is written; `PC` stays at the faulting header (R166). There is no
return from a fault (R168): only `hardwareReset` clears `ERR`. -/
def raiseFault (e : Err) (s : State) : State := { s with err := e }

/-- Hardware reset, an event between commands (R180, log entry 9): nothing survives, and the command stream
restarts. -/
def hardwareReset (_s : State) : State := State.reset

/-- A command that needs a Digest State: `NotConstructed` while `CFG = 0`, before anything is written (R163, R78). -/
def whenConstructed (s : State) (f : Digest → State) : Result :=
  match s.digest with
  | none => .next (raiseFault .notConstructed s)
  | some d => .next (f d)

/-! ## Command fetch -/

/-- The command at `PC`, from the bytes available there (R70, R78). -/
def fetch (s : State) : Decoded := decode (s.cmd.run s.pc)

/-- Why no command starts when there is no whole header at `PC`: the stream is used up there, or the engine waits for
the rest of the header (R62, R188). -/
def noHeader (s : State) : Fault := if s.cmd.avail ≤ s.pc then .endOfStream else .waiting

end Sys2Proof.Machine
end

