-- ==== Sys2Proof/Machine/Streaming.lean ====
section
/-! DEFINITION. The streaming engine (40_update.md): `Absorb`, which UPDATE and FINAL share, and the command
UPDATE. -/

namespace Sys2Proof.Machine

/-- Compresses a block into a Digest State: `(H, T) <- Compress(H, S, T, NULLT, block)`, and the buffer is empty
(R91, R92). -/
def Digest.compressBlock (d : Digest) (block : List Byte) : Digest :=
  let r := compress d.h d.s d.t d.nullt block
  { d with h := r.1, t := r.2, buf := [] }

/-- `AbsorbByte`: append one byte, and compress as soon as the buffer holds 64 (R92). -/
def absorbByte (d : Digest) (b : Byte) : Digest :=
  let buf := d.buf ++ [b]
  if buf.length = Config.blockBytes then d.compressBlock buf else { d with buf := buf }

/-- `Absorb`: feeds bytes, first byte first, into the buffer and the chain value (R91), in the byte-at-a-time form of
R92, which the spec gives leave to take as its definition (log entry 6). -/
def absorb (d : Digest) (p : List Byte) : Digest := p.foldl absorbByte d

/-- UPDATE (R90): absorb the payload; `NotConstructed` while `CFG = 0`. -/
def execUpdate (p : List Byte) (s : State) : Result :=
  whenConstructed s fun d => (s.setDigest (absorb d p)).advance p.length

end Sys2Proof.Machine
end

