-- ==== Sys2Proof/Machine/Finalize.lean ====
section
/-! DEFINITION. The finalizer (42_finalize.md): the three padding branches, the length field, serialisation, and the
command FINAL. Everything here but `execFinal` works on a copy of the Digest State (R36, R121). -/

namespace Sys2Proof.Machine

/-- `PAD`: 0x80 and 63 zero bytes (R122). -/
def padBytes : List Byte := 0x80 :: List.replicate 63 0

/-- `L`: the total message length in bits, taken before any adjustment, modulo 2^64 (R122). -/
def messageBits (d : Digest) : Counter := d.t + BitVec.ofNat 64 (8 * d.nx)

/-- `T' = T' -64 n` on the working copy (R123 to R126). -/
def discount (d : Digest) (n : Nat) : Digest := { d with t := d.t - BitVec.ofNat 64 n }

/-- `NULLT' = 1` on the working copy (R124, R125). -/
def skipCounter (d : Digest) : Digest := { d with nullt := true }

/-- Case `nx = 55`: the domain byte alone (R123). -/
def padExact (d : Digest) : Digest := absorb (discount d 8) [d.w.domainByte]

/-- Case `nx < 55`: 0x80, zeros, the terminator; the counter is skipped when the block holds no message byte, that is
when `nx = 0` (R124). -/
def padOneBlock (d : Digest) : Digest :=
  let nx := d.nx
  let d := if nx = 0 then skipCounter d else d
  let d := discount d (440 - 8 * nx)
  let d := absorb d (padBytes.take (55 - nx))
  let d := absorb d [d.w.terminatorByte]
  discount d 8

/-- Case `nx >= 56`: 0x80 and zeros complete the block that holds the message's tail, the first compression; then 55
zeros and the terminator, with the counter skipped (R125). -/
def padTwoBlocks (d : Digest) : Digest :=
  let nx := d.nx
  let d := discount d (512 - 8 * nx)
  let d := absorb d (padBytes.take (64 - nx))
  let d := discount d 440
  let d := absorb d (List.replicate 55 0)
  let d := skipCounter d
  let d := absorb d [d.w.terminatorByte]
  discount d 8

/-- `Pad(nx)`: the branch is chosen by `nx` alone (R123, R124, R125). -/
def pad (d : Digest) : Digest :=
  if d.nx = 55 then padExact d
  else if d.nx < 55 then padOneBlock d
  else padTwoBlocks d

/-- The working copy after the last compression: padding, then the length field (R120, R126). -/
def finished (d : Digest) : Digest :=
  absorb (discount (pad d) 64) (be64bytes (messageBits d))

/-- `Serialise(h, W)`: the first `W/32` chain words as big-endian bytes (R56, R127). -/
def serialise (h : Vector Word 8) (w : Width) : List Byte :=
  (h.toList.take (w.bits / 32)).flatMap be32bytes

/-- The record FINAL emits from a Digest State (R120, R127). -/
def digestRecord (d : Digest) : List Byte := serialise (finished d).h d.w

/-- FINAL (R120): append the digest; the Digest State is not written (R121); `NotConstructed` while `CFG = 0`. -/
def execFinal (s : State) : Result :=
  whenConstructed s fun d => (s.emit (digestRecord d)).advance 0

end Sys2Proof.Machine
end

