-- ==== Sys2Proof/Machine/Operands.lean ====
section
/-! DEFINITION. Operand assembly (R77 of 30_encoding.md). A command's one operand is its payload: message bytes, taken
as they are, or a salt. There is no register operand, no address and no addressing mode. -/

namespace Sys2Proof.Machine

/-- The salt of 16 bytes as four words, big-endian in each: `S[k] = be32(p[4k], …, p[4k+3])` (R54, R144). -/
def packSalt (p : List Byte) : Vector Word 4 :=
  Vector.ofFn fun k => wordAt p (4 * k.val)

/-- The salt operand of INIT256.S and INIT224.S: only `LEN = 16` is one (R74, R77, R161). The check uses the length,
never the bytes. -/
def saltOperand (p : List Byte) : Option (Vector Word 4) :=
  if p.length = Config.saltBytes then some (packSalt p) else none

/-- The default salt (R140). -/
def zeroSalt : Vector Word 4 := Vector.replicate 4 0

end Sys2Proof.Machine
end

