-- ==== Sys2Proof/Machine/Lifecycle.lean ====
section
/-! DEFINITION. Construction and software reset (43_lifecycle.md): INIT256, INIT224, INIT256.S, INIT224.S and RESET. -/

namespace Sys2Proof.Machine

/-- A Digest State that has absorbed nothing (R140, R141). -/
def Digest.fresh (w : Width) (salt : Vector Word 4) : Digest :=
  { w := w, h := initialVector w, s := salt, t := 0, nullt := false, buf := [] }

/-- Construction: a fresh Digest State in place of whatever there was (R140, R141, R147), and `PC` past the packet. -/
def construct (w : Width) (salt : Vector Word 4) (len : Nat) (s : State) : State :=
  (s.setDigest (Digest.fresh w salt)).advance len

/-- Construction with a supplied salt: `InvalidSaltLength` unless it has 16 bytes, before any write (R141, R161). -/
def constructSalted (w : Width) (p : List Byte) (s : State) : State :=
  match saltOperand p with
  | none => raiseFault .invalidSaltLength s
  | some salt => construct w salt p.length s

/-- INIT256 (R140). -/
def execInit256 (s : State) : Result := .next (construct .w256 zeroSalt 0 s)

/-- INIT224 (R140). -/
def execInit224 (s : State) : Result := .next (construct .w224 zeroSalt 0 s)

/-- INIT256.S (R141). -/
def execInit256S (p : List Byte) (s : State) : Result := .next (constructSalted .w256 p s)

/-- INIT224.S (R141). -/
def execInit224S (p : List Byte) (s : State) : Result := .next (constructSalted .w224 p s)

/-- The Digest State that RESET leaves: chain value, counter, flag and buffer as construction leaves them, width and
salt kept (R146). -/
def Digest.restarted (d : Digest) : Digest :=
  { d with h := initialVector d.w, t := 0, nullt := false, buf := [] }

/-- RESET (R146): a new message with the same width and salt; `NotConstructed` while `CFG = 0`. -/
def execReset (s : State) : Result :=
  whenConstructed s fun d => (s.setDigest d.restarted).advance 0

end Sys2Proof.Machine
end

