-- ==== Sys2Proof/Machine/Dispatch.lean ====
section
/-! DEFINITION. One arm for each command: the rule column of R73 of 30_encoding.md. -/

namespace Sys2Proof.Machine

def exec (i : Instr) (s : State) : Host.Outcome State Fault Refusal :=
  match i with
  | .init256 => Sys2Proof.Machine.execInit256 s
  | .init224 => Sys2Proof.Machine.execInit224 s
  | .init256S salt => Sys2Proof.Machine.execInit256S salt s
  | .init224S salt => Sys2Proof.Machine.execInit224S salt s
  | .update bytes => Sys2Proof.Machine.execUpdate bytes s
  | .final => Sys2Proof.Machine.execFinal s
  | .reset => Sys2Proof.Machine.execReset s

end Sys2Proof.Machine
end

