-- ==== Sys2Proof/Machine/Step.lean ====
section
/-! DEFINITION. One step of the engine (R78 of 30_encoding.md). -/

namespace Sys2Proof.Machine

/-- One step, in the order of R78: a halted engine has none; an incomplete packet is waited for; a reserved header
raises `IllegalCommand`; a complete command is executed. -/
def step (s : State) : Host.Outcome State Fault Refusal :=
  if s.isHalted then .fault .halted
  else
    match fetch s with
    | .headerIncomplete => .fault (noHeader s)
    | .payloadIncomplete => .fault .waiting
    | .reserved => .next (raiseFault .illegalCommand s)
    | .command i _ => exec i s

/-- The state with the instruction of a word of opcode_table.json supplied on `CMD` at `PC`, where the next step
fetches it (log entry 5). -/
def State.withFetchWord (s : State) (nbits w : Nat) : State :=
  { s with cmd := s.cmd.store s.pc (layoutTableWord nbits w) }

end Sys2Proof.Machine
end

