-- ==== Sys2Proof/Machine/Assembler.lean ====
section
/-! DEFINITION. The assembler of 30_encoding.md section 5, beside the machine: the text of a line (R79), the
pseudo-commands and their expansions (R80, R149), and the bytes of a program. The engine never sees any of it. Text is
a list of characters. -/

namespace Sys2Proof.Machine

/-! ## Byte-sequence operands (R79) -/

/-- A byte-sequence literal. -/
inductive ByteSeq where
  /-- `"text"`: the ASCII bytes of the text, no terminator. -/
  | text (chars : List Char)
  /-- `x"6162 63"`: the bytes written in hex digits. -/
  | hex (bytes : List Byte)
  /-- `N*seq`: `seq` repeated `N` times. -/
  | times (n : Nat) (seq : ByteSeq)
  /-- `seq ++ seq`: concatenation. -/
  | concat (left right : ByteSeq)
deriving DecidableEq, Repr

/-- The bytes a literal stands for. -/
def ByteSeq.bytes : ByteSeq → List Byte
  | .text chars => chars.map fun c => BitVec.ofNat 8 c.toNat
  | .hex bytes => bytes
  | .times n seq => (List.replicate n seq.bytes).flatten
  | .concat left right => left.bytes ++ right.bytes

/-! ## Commands and pseudo-commands (R79, R80) -/

/-- What one line of assembler text says. -/
inductive AsmCommand where
  /-- One of the seven commands, its operand already a byte sequence. -/
  | plain (i : Instr)
  /-- `UPDATE* seq`. -/
  | updateStar (seq : List Byte)
  /-- `HASH256 seq`. -/
  | hash256 (seq : List Byte)
  /-- `HASH224 seq`. -/
  | hash224 (seq : List Byte)
  /-- `HASH256.S salt, seq`. -/
  | hash256S (salt seq : List Byte)
  /-- `HASH224.S salt, seq`. -/
  | hash224S (salt seq : List Byte)
deriving DecidableEq, Repr

/-- Cuts a sequence into pieces of 65535 bytes and the remainder; `fuel` bounds the number of full pieces. -/
def payloadPieces : Nat → List Byte → List (List Byte)
  | 0, seq => [seq]
  | fuel + 1, seq =>
    if seq.length ≤ Config.maxPayload then [seq]
    else seq.take Config.maxPayload :: payloadPieces fuel (seq.drop Config.maxPayload)

/-- `UPDATE* seq`: one UPDATE where the sequence fits one, else pieces of 65535 bytes, the remainder last and never
empty (R80). -/
def expandUpdate (seq : List Byte) : List Instr :=
  (payloadPieces (seq.length / Config.maxPayload) seq).map Instr.update

/-- The commands a line stands for (R80). -/
def AsmCommand.expand : AsmCommand → List Instr
  | .plain i => [i]
  | .updateStar seq => expandUpdate seq
  | .hash256 seq => .init256 :: expandUpdate seq ++ [.final]
  | .hash224 seq => .init224 :: expandUpdate seq ++ [.final]
  | .hash256S salt seq => .init256S salt :: expandUpdate seq ++ [.final]
  | .hash224S salt seq => .init224S salt :: expandUpdate seq ++ [.final]

/-- The command stream of a program. `LEN` is the operand's length; a salt's length is not checked (R79). -/
def assemble (program : List AsmCommand) : List Byte :=
  (program.flatMap AsmCommand.expand).flatMap encode

/-! ## The text of a line (R79) -/

/-- Leaves out leading spaces and tabs. -/
def skipBlanks : List Char → List Char
  | ' ' :: cs => skipBlanks cs
  | '\t' :: cs => skipBlanks cs
  | cs => cs

/-- The characters up to the closing double quote, ASCII only, and the text after it. -/
def readQuoted : List Char → Option (List Char × List Char)
  | [] => none
  | c :: cs =>
    if c = Char.ofNat 34 then some ([], cs)
    else if c.toNat < 128 then (readQuoted cs).map fun r => (c :: r.1, r.2)
    else none

/-- The value of a hex digit. -/
def hexDigit (c : Char) : Option Nat :=
  if '0' ≤ c ∧ c ≤ '9' then some (c.toNat - '0'.toNat)
  else if 'a' ≤ c ∧ c ≤ 'f' then some (c.toNat - 'a'.toNat + 10)
  else if 'A' ≤ c ∧ c ≤ 'F' then some (c.toNat - 'A'.toNat + 10)
  else none

/-- Hex digits as bytes, two digits each; an odd number of digits is no byte sequence. -/
def pairDigits : List Nat → Option (List Byte)
  | [] => some []
  | [_] => none
  | hi :: lo :: ds => (pairDigits ds).map fun bs => BitVec.ofNat 8 (16 * hi + lo) :: bs

/-- The bytes between the quotes of a hex literal, spaces ignored. -/
def hexBytes (cs : List Char) : Option (List Byte) :=
  ((cs.filter fun c => c ≠ ' ').mapM hexDigit).bind pairDigits

/-- A decimal number and the text after it. -/
def readNumber : Nat → List Char → Nat × List Char
  | acc, c :: cs =>
    if '0' ≤ c ∧ c ≤ '9' then readNumber (10 * acc + (c.toNat - '0'.toNat)) cs else (acc, c :: cs)
  | acc, [] => (acc, [])

/-- A literal without `++`: text, hex, or a number, `*` and such a literal, so that `*` binds before `++` (log entry
13). `fuel` bounds the nesting. -/
def readTerm : Nat → List Char → Option (ByteSeq × List Char)
  | 0, _ => none
  | fuel + 1, cs =>
    match skipBlanks cs with
    | [] => none
    | c :: rest =>
      if c = Char.ofNat 34 then (readQuoted rest).map fun r => (.text r.1, r.2)
      else if c = 'x' then
        match rest with
        | q :: rest =>
          if q = Char.ofNat 34 then
            (readQuoted rest).bind fun r => (hexBytes r.1).map fun bs => (.hex bs, r.2)
          else none
        | [] => none
      else if '0' ≤ c ∧ c ≤ '9' then
        let n := readNumber 0 (c :: rest)
        match skipBlanks n.2 with
        | '*' :: rest => (readTerm fuel rest).map fun r => (.times n.1 r.1, r.2)
        | _ => none
      else none

/-- A byte-sequence operand: literals joined by `++`. -/
def readSeq : Nat → List Char → Option (ByteSeq × List Char)
  | 0, _ => none
  | fuel + 1, cs =>
    (readTerm (fuel + 1) cs).bind fun l =>
      match skipBlanks l.2 with
      | '+' :: '+' :: rest => (readSeq fuel rest).map fun r => (.concat l.1 r.1, r.2)
      | rest => some (l.1, rest)

/-- Whether only a comment, or nothing, is left of a line. -/
def lineEnds (cs : List Char) : Bool :=
  match skipBlanks cs with
  | [] => true
  | c :: _ => c == ';'

/-- The one operand of a command, and the end of its line. -/
def readOperand (cs : List Char) : Option (List Byte) :=
  (readSeq (cs.length + 1) cs).bind fun r => if lineEnds r.2 then some r.1.bytes else none

/-- The two operands `salt, seq` of a salted one-shot, and the end of its line. -/
def readTwoOperands (cs : List Char) : Option (List Byte × List Byte) :=
  (readSeq (cs.length + 1) cs).bind fun r =>
    match skipBlanks r.2 with
    | ',' :: rest => (readOperand rest).map fun seq => (r.1.bytes, seq)
    | _ => none

/-- Whether a character belongs to a mnemonic: anything but a blank and the start of a comment. -/
def inMnemonic (c : Char) : Bool := !(c == ' ' || c == '\t' || c == ';')

/-- A line whose commands all have an encoding: an operand longer than 65535 bytes has none (R70, log entry 13). -/
def encodable (c : AsmCommand) : Option (Option AsmCommand) :=
  if c.expand.all Instr.wellFormed then some (some c) else none

/-- One line of assembler text: `none` for a line that says nothing valid, `some none` for an empty line or a
comment (R79, R80). -/
def parseLine (line : List Char) : Option (Option AsmCommand) :=
  let cs := skipBlanks line
  let name := cs.takeWhile inMnemonic
  let rest := cs.dropWhile inMnemonic
  let bare (i : Instr) : Option (Option AsmCommand) := if lineEnds rest then some (some (.plain i)) else none
  let one (f : List Byte → AsmCommand) : Option (Option AsmCommand) := (readOperand rest).bind fun p => encodable (f p)
  let two (f : List Byte → List Byte → AsmCommand) : Option (Option AsmCommand) :=
    (readTwoOperands rest).bind fun p => encodable (f p.1 p.2)
  if name = [] then some none
  else if name = ['I', 'N', 'I', 'T', '2', '5', '6'] then bare .init256
  else if name = ['I', 'N', 'I', 'T', '2', '2', '4'] then bare .init224
  else if name = ['I', 'N', 'I', 'T', '2', '5', '6', '.', 'S'] then one fun p => .plain (.init256S p)
  else if name = ['I', 'N', 'I', 'T', '2', '2', '4', '.', 'S'] then one fun p => .plain (.init224S p)
  else if name = ['U', 'P', 'D', 'A', 'T', 'E'] then one fun p => .plain (.update p)
  else if name = ['F', 'I', 'N', 'A', 'L'] then bare .final
  else if name = ['R', 'E', 'S', 'E', 'T'] then bare .reset
  else if name = ['U', 'P', 'D', 'A', 'T', 'E', '*'] then one .updateStar
  else if name = ['H', 'A', 'S', 'H', '2', '5', '6'] then one .hash256
  else if name = ['H', 'A', 'S', 'H', '2', '2', '4'] then one .hash224
  else if name = ['H', 'A', 'S', 'H', '2', '5', '6', '.', 'S'] then two .hash256S
  else if name = ['H', 'A', 'S', 'H', '2', '2', '4', '.', 'S'] then two .hash224S
  else none

/-- The program that lines of text say, none where a line is not valid (R79). -/
def parseProgram (lines : List (List Char)) : Option (List AsmCommand) :=
  (lines.mapM parseLine).map fun cmds => cmds.filterMap id

end Sys2Proof.Machine
end

