-- ==== Sys2Proof/Safety.lean ====
section
/-! DEFINITION. What counts as a sound state and a sound run, and the spec's second formulations of the engine's
operations (closed forms, phase form, whole-message form), in the terms claims use. -/

namespace Sys2Proof.Machine

/-! ## Invariants -/

/-- The Digest State between commands: fewer than 64 bytes buffered (R27), the skip-counter flag clear (R25), the
counter a multiple of 512 (R24). -/
def Digest.Inv (d : Digest) : Prop :=
  d.nx < 64 ∧ d.nullt = false ∧ d.t.toNat % 512 = 0

/-- The state between commands: a sound Digest State where there is one; records of 28 or 32 bytes (R33); `CMD` in
canonical form, and no byte of it consumed that was not supplied (R32, R62). -/
def State.Inv (s : State) : Prop :=
  (∀ d, s.digest = some d → d.Inv) ∧
  (∀ r ∈ s.out, r.length = 28 ∨ r.length = 32) ∧
  s.cmd.wf ∧ s.pc ≤ s.cmd.avail

/-! ## Ends of a run (R188) -/

/-- Final: no fault, and every byte of the stream consumed. -/
def State.EndsFinal (s : State) : Prop := s.err = .none ∧ s.pc = s.cmd.avail

/-- Faulted: a command faulted. -/
def State.EndsFaulted (s : State) : Prop := s.err ≠ .none

/-- Stuck: no fault, bytes left at `PC`, and they are an incomplete packet whose header, if complete, is not
reserved. -/
def State.EndsStuck (s : State) : Prop :=
  s.err = .none ∧ s.pc < s.cmd.avail ∧ (fetch s = .headerIncomplete ∨ fetch s = .payloadIncomplete)

/-- A command sequence run one command after the other, stopping where one gives no next state. -/
def execAll : List Instr → State → Result
  | [], s => .next s
  | i :: is, s =>
    match exec i s with
    | .next t => execAll is t
    | .fault r => .fault r
    | .refused r => .refused r

/-! ## The decode procedure on a byte string (R78) -/

/-- R78 line by line, for a command stream given as the byte string `stream`, `avail` its length. The line `execute
the row's rule` is `exec` of the row's command. -/
def stepOnStream (stream : List Byte) (s : State) : Result :=
  let avail := stream.length
  if s.err ≠ .none then .fault .halted
  else if avail < s.pc + 4 then .fault (if avail ≤ s.pc then .endOfStream else .waiting)
  else
    let hdr := be32 (stream.getD s.pc 0) (stream.getD (s.pc + 1) 0) (stream.getD (s.pc + 2) 0) (stream.getD (s.pc + 3) 0)
    let len := (lenField hdr).toNat
    match commandRows.find? (fun row => row.selects hdr) with
    | none => .next { s with err := .illegalCommand }
    | some row =>
      if avail < s.pc + 4 + len then .fault .waiting
      else
        let payload := (stream.drop (s.pc + 4)).take len
        if row.command ∈ [Command.update, .final, .reset] ∧ s.cfg = 0 then .next { s with err := .notConstructed }
        else if row.command ∈ [Command.init256S, .init224S] ∧ len ≠ 16 then .next { s with err := .invalidSaltLength }
        else exec (row.command.withPayload payload) s

/-! ## Headers by their fields (R71, R73, R76) -/

/-- The row of the table of R73 for a command, by the fields of the header. -/
def fieldsSelect (hdr : Word) : Command → Prop
  | .init256 => opcField hdr = 0x01 ∧ rsvField hdr = 0 ∧ saltField hdr = 0 ∧ w224Field hdr = 0 ∧ lenField hdr = 0
  | .init224 => opcField hdr = 0x01 ∧ rsvField hdr = 0 ∧ saltField hdr = 0 ∧ w224Field hdr = 1 ∧ lenField hdr = 0
  | .init256S => opcField hdr = 0x01 ∧ rsvField hdr = 0 ∧ saltField hdr = 1 ∧ w224Field hdr = 0
  | .init224S => opcField hdr = 0x01 ∧ rsvField hdr = 0 ∧ saltField hdr = 1 ∧ w224Field hdr = 1
  | .update => opcField hdr = 0x02 ∧ rsvField hdr = 0 ∧ saltField hdr = 0 ∧ w224Field hdr = 0
  | .final => opcField hdr = 0x03 ∧ rsvField hdr = 0 ∧ saltField hdr = 0 ∧ w224Field hdr = 0 ∧ lenField hdr = 0
  | .reset => opcField hdr = 0x04 ∧ rsvField hdr = 0 ∧ saltField hdr = 0 ∧ w224Field hdr = 0 ∧ lenField hdr = 0

/-- The reserved headers, as R76 lists them. -/
def reservedHeader (hdr : Word) : Prop :=
  opcField hdr = 0x00 ∨ 0x05 ≤ opcField hdr ∨ rsvField hdr ≠ 0 ∨
  (opcField hdr ∈ [0x02, 0x03, 0x04] ∧ (saltField hdr = 1 ∨ w224Field hdr = 1)) ∨
  (opcField hdr ∈ [0x03, 0x04] ∧ lenField hdr ≠ 0) ∨
  (opcField hdr = 0x01 ∧ saltField hdr = 0 ∧ lenField hdr ≠ 0)

/-! ## Word arithmetic on natural numbers (R10) -/

/-- `a +32 b` of R10. -/
def add32 (a b : Nat) : Nat := (a + b) % 2 ^ 32

/-- `rotr32(x, n)` of R10, as it is printed there. -/
def rotr32Nat (x n : Nat) : Nat := (x / 2 ^ n + (x % 2 ^ n) * 2 ^ (32 - n)) % 2 ^ 32

/-- `be32(b0, b1, b2, b3)` of R10, as it is printed there. -/
def be32Nat (b0 b1 b2 b3 : Byte) : Nat :=
  b0.toNat * 2 ^ 24 + b1.toNat * 2 ^ 16 + b2.toNat * 2 ^ 8 + b3.toNat

/-! ## Absorb in phases (R91) -/

/-- Phase 2 of R91: whole blocks straight from the input. The result is the Digest State and the bytes left; `fuel`
bounds the number of blocks. -/
def absorbBlocks : Nat → Digest → List Byte → Digest × List Byte
  | 0, d, p => (d, p)
  | fuel + 1, d, p =>
    if 64 ≤ p.length then absorbBlocks fuel (d.compressBlock (p.take 64)) (p.drop 64) else (d, p)

/-- Phase 1 of R91: top up a partly filled buffer. The result is the Digest State and the bytes left. -/
def absorbTopUp (d : Digest) (p : List Byte) : Digest × List Byte :=
  if 0 < d.buf.length then
    let n := min p.length (64 - d.buf.length)
    let buf := d.buf ++ p.take n
    if buf.length = 64 then (d.compressBlock buf, p.drop n) else ({ d with buf := buf }, p.drop n)
  else (d, p)

/-- `Absorb` as R91 prints it: top up, whole blocks, tail. -/
def absorbPhases (d : Digest) (p : List Byte) : Digest :=
  let one := absorbTopUp d p
  let two := absorbBlocks (one.2.length / 64) one.1 one.2
  if 0 < two.2.length then { two.1 with buf := two.2 } else two.1

/-! ## Closed forms (R92, R128) -/

/-- Block `i` of a byte stream. -/
def blockOf (stream : List Byte) (i : Nat) : List Byte := (stream.drop (64 * i)).take 64

/-- Compresses blocks in order, each with its own counter (as Compress sees it, after its increment) and flag. -/
def compressChain (s : Vector Word 4) (h : Vector Word 8) (blocks : List (List Byte × Counter × Bool)) :
    Vector Word 8 :=
  blocks.foldl (fun h b => (compress h s (b.2.1 - 512) b.2.2 b.1).1) h

/-- The blocks FINAL compresses, each with the counter and the flag it sees: the table of R128. -/
def finalBlocks (d : Digest) : List (List Byte × Counter × Bool) :=
  let nx := d.buf.length
  let bits := d.t + BitVec.ofNat 64 (8 * nx)
  let len8 := be64bytes bits
  if nx = 0 then [([0x80] ++ List.replicate 54 0 ++ [d.w.terminatorByte] ++ len8, bits, true)]
  else if nx ≤ 54 then
    [(d.buf ++ [0x80] ++ List.replicate (54 - nx) 0 ++ [d.w.terminatorByte] ++ len8, bits, false)]
  else if nx = 55 then [(d.buf ++ [d.w.domainByte] ++ len8, bits, false)]
  else
    [(d.buf ++ [0x80] ++ List.replicate (63 - nx) 0, bits, false),
     (List.replicate 55 0 ++ [d.w.terminatorByte] ++ len8, bits, true)]

/-- The record FINAL appends, by the closed form (R128): `Serialise` of the last chain value. -/
def closedRecord (d : Digest) : List Byte := serialise (compressChain d.s d.h (finalBlocks d)) d.w

/-! ## The published algorithm on a whole message (R128, its last paragraph) -/

/-- The padded message: the message, a 1 bit, the fewest 0 bits that bring the length to 447 modulo 512, a bit that
is 1 for width 256 and 0 for width 224, and the 64-bit length; in bytes, for a whole-byte message. -/
def paddedMessage (w : Width) (msg : List Byte) : List Byte :=
  let extra := (119 - msg.length % 64) % 64
  let marker : List Byte :=
    if extra = 0 then [w.domainByte]
    else 0x80 :: List.replicate (extra - 1) 0 ++ [w.terminatorByte]
  msg ++ marker ++ be64bytes (BitVec.ofNat 64 (8 * msg.length))

/-- The blocks of the padded message. A block that holds a message byte sees the number of message bits up to and
including it; a block that holds none sees no counter. -/
def paddedBlocks (w : Width) (msg : List Byte) : List (List Byte × Counter × Bool) :=
  let padded := paddedMessage w msg
  (List.range (padded.length / 64)).map fun i =>
    (blockOf padded i, BitVec.ofNat 64 (8 * min msg.length (64 * (i + 1))), decide (msg.length ≤ 64 * i))

/-- The digest of a message: pad it whole, then compress block by block from the initial vector. -/
def publishedDigest (w : Width) (salt : Vector Word 4) (msg : List Byte) : List Byte :=
  serialise (compressChain salt (initialVector w) (paddedBlocks w msg)) w

end Sys2Proof.Machine
end

