-- ==== Sys2Proof/Certificates/Slice0/Obligations.lean ====
section
/-! DEFINITION. The statements for the provers, from the spec's numbered rules. They rest on Safety.lean for what a
sound state is, how a run ends, and the spec's second formulations (closed form, phases, whole message). -/

open Sys2Proof Sys2Proof.Machine

/-! ## Encoding -/

/-- The worked encodings of R85: seven commands encoded and decoded, five reserved headers, two salts of a wrong
length, which are not reserved and fault when executed. -/
def Obligations.ReferenceEncodingsDecode : Prop :=
  (∀ c ∈ ([ (.init256, [0x01, 0x00, 0x00, 0x00]),
            (.init224, [0x01, 0x01, 0x00, 0x00]),
            (.init256S [0x31, 0x32, 0x33, 0x34, 0x35, 0x36, 0x37, 0x38, 0x39, 0x30, 0x31, 0x32, 0x33, 0x34, 0x35, 0x36],
              [0x01, 0x02, 0x00, 0x10, 0x31, 0x32, 0x33, 0x34, 0x35, 0x36, 0x37, 0x38, 0x39, 0x30, 0x31, 0x32, 0x33,
               0x34, 0x35, 0x36]),
            (.init224S [0x53, 0x41, 0x4c, 0x54, 0x73, 0x61, 0x6c, 0x74, 0x53, 0x61, 0x6c, 0x74, 0x53, 0x41, 0x4c, 0x54],
              [0x01, 0x03, 0x00, 0x10, 0x53, 0x41, 0x4c, 0x54, 0x73, 0x61, 0x6c, 0x74, 0x53, 0x61, 0x6c, 0x74, 0x53,
               0x41, 0x4c, 0x54]),
            (.update [0x61, 0x62, 0x63], [0x02, 0x00, 0x00, 0x03, 0x61, 0x62, 0x63]),
            (.update [], [0x02, 0x00, 0x00, 0x00]),
            (.update (List.replicate 300 0), [0x02, 0x00, 0x01, 0x2c] ++ List.replicate 300 0),
            (.final, [0x03, 0x00, 0x00, 0x00]),
            (.reset, [0x04, 0x00, 0x00, 0x00]) ] : List (Instr × List Byte)),
    encode c.1 = c.2 ∧ decode c.2 = .command c.1 []) ∧
  (∀ hdr ∈ ([ [0x00, 0x00, 0x00, 0x00], [0x03, 0x00, 0x00, 0x01], [0x02, 0x01, 0x00, 0x00], [0x01, 0x00, 0x00, 0x10],
              [0x01, 0x04, 0x00, 0x00] ] : List (List Byte)),
    ∀ rest, decode (hdr ++ rest) = .reserved) ∧
  (∀ p : List Byte, p.length = 15 →
    decode ([0x01, 0x02, 0x00, 0x0f] ++ p) = .command (.init256S p) [] ∧
    ∀ s, exec (.init256S p) s = .next { s with err := .invalidSaltLength }) ∧
  (decode [0x01, 0x02, 0x00, 0x00] = .command (.init256S []) [] ∧
    ∀ s, exec (.init256S []) s = .next { s with err := .invalidSaltLength })

/-- No header selects two rows of the table of R73. -/
def Obligations.CommandRowsDisjoint : Prop :=
  ∀ hdr : Word, ∀ r ∈ commandRows, ∀ r' ∈ commandRows, r.selects hdr = true → r'.selects hdr = true → r = r'

/-- The table of R73, mask and match against fields: a header selects a command exactly when its fields (R71) are
those of the command's row. -/
def Obligations.HeaderFieldsSelectCommand : Prop :=
  ∀ (hdr : Word) (c : Command), commandOf hdr = some c ↔ fieldsSelect hdr c

/-- A header selects no command exactly when it is on the list of R76. -/
def Obligations.ReservedHeadersExactly : Prop :=
  ∀ hdr : Word, commandOf hdr = none ↔ reservedHeader hdr

/-- Decoding the encoding of a well-formed command, whatever follows it, gives the command back and leaves what
follows: every command, every operand (R70, R73, R75). -/
def Obligations.DecodeOfEncode : Prop :=
  ∀ (i : Instr) (rest : List Byte), i.wellFormed = true → decode (encode i ++ rest) = .command i rest

/-- Every byte string that decodes to a command is that command's encoding, followed by the rest, and the command is
well-formed: one encoding for each command, and no bit without a meaning (R73, D3). -/
def Obligations.EncodeOfDecode : Prop :=
  ∀ (bytes rest : List Byte) (i : Instr), decode bytes = .command i rest →
    i.wellFormed = true ∧ bytes = encode i ++ rest

/-! ## One step -/

/-- When the bytes at `PC` decode to a command, the command is well-formed and the step is `exec` of it; `exec` moves
`PC` past the packet itself, and the step adds nothing (R78). -/
def Obligations.StepRunsDecodedCommand : Prop :=
  ∀ (s : State) (i : Instr) (rest : List Byte), s.err = .none → fetch s = .command i rest →
    i.wellFormed = true ∧ step s = exec i s

/-- When the bytes of a well-formed command's packet stand at `PC` in `CMD`, read one byte at a time, the step is
`exec` of that command. -/
def Obligations.StepRunsSuppliedPacket : Prop :=
  ∀ (s : State) (i : Instr), s.err = .none → s.cmd.wf → i.wellFormed = true →
    (∀ k, k < (encode i).length → s.cmd.read? (s.pc + k) = (encode i)[k]?) → step s = exec i s

/-- The step on a command stream given as a byte string is R78's pseudocode, line by line: halted, wait for a header,
reserved, wait for the payload, `NotConstructed`, `InvalidSaltLength`, execute. The `Fault` that names a line without
a step (`halted`; `endOfStream` or `waiting` within R78's one `wait` line) is the model's choice (log entry 3). -/
def Obligations.StepFollowsDecodeProcedure : Prop :=
  ∀ (stream : List Byte) (s : State), s.cmd = cellsFrom 0 stream → step s = stepOnStream stream s

/-- An instruction of opcode_table.json supplied at `PC` is the one the next step runs. `withFetchWord` is the
model's way to load a word (log entry 5). -/
def Obligations.FetchWordRunsTableInstruction : Prop :=
  ∀ (nbits w : Nat) (i : Instr) (s : State), s.err = .none → decodeTableWord nbits w = some i →
    step (s.withFetchWord nbits w) = exec i (s.withFetchWord nbits w)

/-- A reserved header at `PC` (R76) raises `IllegalCommand`, from its four bytes alone: whatever follows them, and
whether or not the engine is constructed (R162). -/
def Obligations.IllegalCommandRaised : Prop :=
  ∀ (s : State) (b0 b1 b2 b3 : Byte), s.err = .none → s.cmd.wf →
    s.cmd.read? s.pc = some b0 → s.cmd.read? (s.pc + 1) = some b1 →
    s.cmd.read? (s.pc + 2) = some b2 → s.cmd.read? (s.pc + 3) = some b3 →
    reservedHeader (be32 b0 b1 b2 b3) → step s = .next { s with err := .illegalCommand }

/-- An incomplete packet is not started (R62): a header byte missing, or a payload byte missing behind a header that
is not reserved. Which `Fault` says so is the model's choice (log entry 3). -/
def Obligations.IncompletePacketWaits : Prop :=
  ∀ s : State, s.err = .none → s.cmd.wf →
    ((∃ k < 4, s.cmd.read? (s.pc + k) = none) →
      step s = .fault (if s.cmd.avail ≤ s.pc then .endOfStream else .waiting)) ∧
    (∀ (b0 b1 b2 b3 : Byte) (c : Command), s.cmd.read? s.pc = some b0 → s.cmd.read? (s.pc + 1) = some b1 →
      s.cmd.read? (s.pc + 2) = some b2 → s.cmd.read? (s.pc + 3) = some b3 →
      commandOf (be32 b0 b1 b2 b3) = some c →
      (∃ k < (lenField (be32 b0 b1 b2 b3)).toNat, s.cmd.read? (s.pc + 4 + k) = none) →
      step s = .fault .waiting)

/-- While `ERR` is not 0 there is no step, and a run of any length from there ends at once, nothing written (R170). -/
def Obligations.HaltedEngineHasNoStep : Prop :=
  ∀ s : State, s.err ≠ .none → step s = .fault .halted ∧ ∀ n, core.run (n + 1) s = .fault .halted

/-- Taking a fault writes `ERR` and nothing else, from a state without fault, and halts the engine (R166, R170).
That no step is written as the outcome `halted` is the model's choice (log entry 3). -/
def Obligations.FaultEntryWritesOnlyErr : Prop :=
  ∀ s t : State, step s = .next t → t.err ≠ .none →
    s.err = .none ∧ t = { s with err := t.err } ∧ step t = .fault .halted

/-- What a step can do to the interface state: it starts with `ERR = 0`; it never writes `CMD` (R66); it never clears
`CFG` (R30); it appends at most one record and rewrites none (R33); `PC` moves past the packet of the command executed,
or stays where a fault was taken (R32). -/
def Obligations.StepIsMonotone : Prop :=
  ∀ s t : State, step s = .next t →
    s.err = .none ∧ t.cmd = s.cmd ∧ (s.cfg = 1 → t.cfg = 1) ∧
    (t.out = s.out ∨ ∃ record, t.out = s.out ++ [record]) ∧
    ((t.err ≠ .none ∧ t.pc = s.pc) ∨
     (t.err = .none ∧ ∃ i rest, fetch s = .command i rest ∧ t.pc = s.pc + 4 + i.payload.length))

/-- A byte supplied later changes nothing a step does (R62, R66, U9): the step with more bytes on the stream gives
the same state, with those bytes on the stream. -/
def Obligations.LaterBytesChangeNothing : Prop :=
  ∀ (s t : State) (bytes : List Byte), s.cmd.wf → step s = .next t →
    step (s.supply bytes) = .next (t.supply bytes)

/-! ## Ends of a run -/

/-- In a sound state there is no step exactly when the run has ended Final, Faulted or Stuck (R188), one `Fault` for
each, and a step is never refused. The names of the three are the model's (log entry 3). -/
def Obligations.RunEndsInExactlyOneWay : Prop :=
  ∀ s : State, s.Inv →
    (step s = .fault .endOfStream ↔ s.EndsFinal) ∧
    (step s = .fault .halted ↔ s.EndsFaulted) ∧
    (step s = .fault .waiting ↔ s.EndsStuck) ∧
    ∀ r, step s ≠ .refused r

/-- Every run over a finite command stream ends, within one step more than the stream holds headers (R188: each step
either halts or advances `PC` by at least 4). -/
def Obligations.EveryRunEnds : Prop :=
  ∀ s : State, s.Inv → ∃ r, core.run ((s.cmd.avail - s.pc) / 4 + 1) s = .fault r

/-! ## Reset and invariants -/

/-- The state after hardware reset, whatever came before: `CFG = 0`, `ERR = 0`, `PC = 0`, `OUT` empty, no Digest State
(R180), and nothing supplied on the stream yet. -/
def Obligations.HardwareResetState : Prop :=
  ∀ s : State, hardwareReset s = State.reset ∧ State.reset.cfg = 0 ∧ State.reset.err.code = 0 ∧
    State.reset.pc = 0 ∧ State.reset.out = [] ∧ State.reset.digest = none ∧
    ∀ a, State.reset.cmd.read? a = none

/-- The state after hardware reset is sound. -/
def Obligations.ResetStateIsSound : Prop := State.reset.Inv

/-- Every step keeps a sound state sound: fewer than 64 bytes buffered (R27), the skip-counter flag clear (R25), the
counter a multiple of 512 (R24), records of 28 or 32 bytes (R33), the stream canonical and `PC` within it. -/
def Obligations.StepKeepsSoundState : Prop :=
  ∀ s t : State, s.Inv → step s = .next t → t.Inv

/-- The host's events keep a sound state sound: bytes supplied, and hardware reset. -/
def Obligations.HostEventsKeepSoundState : Prop :=
  ∀ (s : State) (bytes : List Byte), s.Inv → (s.supply bytes).Inv ∧ (hardwareReset s).Inv

/-- `W` and `S` are constant from one INIT to the next (R29): a step whose command is not an INIT keeps both. -/
def Obligations.WidthAndSaltConstant : Prop :=
  ∀ (s t : State) (d : Digest), s.digest = some d → step s = .next t →
    (∀ i rest, fetch s = .command i rest → i = .final ∨ i = .reset ∨ ∃ p, i = .update p) →
    ∃ d', t.digest = some d' ∧ d'.w = d.w ∧ d'.s = d.s

/-! ## Construction and software reset -/

/-- INIT256 and INIT224 (R140) with the vectors of R142 and R143: the whole next state, from every state, constructed
or not (R147). -/
def Obligations.InitConstructs : Prop :=
  ∀ s : State,
    exec .init256 s = .next
      { s with
        digest := some
          { w := .w256
            h := #v[0x6A09E667, 0xBB67AE85, 0x3C6EF372, 0xA54FF53A, 0x510E527F, 0x9B05688C, 0x1F83D9AB, 0x5BE0CD19]
            s := #v[0, 0, 0, 0], t := 0, nullt := false, buf := [] }
        pc := s.pc + 4 } ∧
    exec .init224 s = .next
      { s with
        digest := some
          { w := .w224
            h := #v[0xC1059ED8, 0x367CD507, 0x3070DD17, 0xF70E5939, 0xFFC00B31, 0x68581511, 0x64F98FA7, 0xBEFA4FA4]
            s := #v[0, 0, 0, 0], t := 0, nullt := false, buf := [] }
        pc := s.pc + 4 }

/-- INIT256.S and INIT224.S (R141): with 16 bytes the whole next state, salt word `k` being
`p[4k]*2^24 + p[4k+1]*2^16 + p[4k+2]*2^8 + p[4k+3]` (R144, R54); with any other length `InvalidSaltLength` and nothing
else written (R161). -/
def Obligations.SaltedInitConstructsOrFaults : Prop :=
  ∀ (p : List Byte) (s : State),
    (p.length = 16 → ∃ salt : Vector Word 4,
      (∀ k : Fin 4, salt[k].toNat =
        be32Nat (p.getD (4 * k.val) 0) (p.getD (4 * k.val + 1) 0) (p.getD (4 * k.val + 2) 0) (p.getD (4 * k.val + 3) 0)) ∧
      exec (.init256S p) s = .next
        { s with digest := some { w := .w256, h := iv256, s := salt, t := 0, nullt := false, buf := [] }, pc := s.pc + 20 } ∧
      exec (.init224S p) s = .next
        { s with digest := some { w := .w224, h := iv224, s := salt, t := 0, nullt := false, buf := [] }, pc := s.pc + 20 }) ∧
    (p.length ≠ 16 →
      exec (.init256S p) s = .next { s with err := .invalidSaltLength } ∧
      exec (.init224S p) s = .next { s with err := .invalidSaltLength })

/-- An explicit salt of zeros leaves the state that no salt leaves, but for `PC`; two different salts of 16 bytes give
different salt words (R145). -/
def Obligations.ZeroSaltEqualsNoSalt : Prop :=
  (∀ s : State, ∃ t u : State,
    exec .init256 s = .next t ∧ exec .init224 s = .next u ∧ t.pc = s.pc + 4 ∧ u.pc = s.pc + 4 ∧
    exec (.init256S (List.replicate 16 0)) s = .next { t with pc := s.pc + 20 } ∧
    exec (.init224S (List.replicate 16 0)) s = .next { u with pc := s.pc + 20 }) ∧
  ∀ p q : List Byte, p.length = 16 → q.length = 16 → p ≠ q → packSalt p ≠ packSalt q

/-- RESET (R146): with a Digest State the whole next state, chain value by the width kept, salt kept; without one
`NotConstructed`; directly after a construction or a RESET it changes nothing but `PC`. -/
def Obligations.ResetRestartsMessage : Prop :=
  (∀ (s : State) (d : Digest), s.digest = some d →
    exec .reset s = .next
      { s with
        digest := some { d with h := (match d.w with | .w256 => iv256 | .w224 => iv224), t := 0, nullt := false, buf := [] }
        pc := s.pc + 4 }) ∧
  (∀ s : State, s.cfg = 0 → exec .reset s = .next { s with err := .notConstructed }) ∧
  ∀ (s : State) (w : Width) (salt : Vector Word 4), s.digest = some (Digest.fresh w salt) →
    exec .reset s = .next { s with pc := s.pc + 4 }

/-- `NotConstructed` (R163): UPDATE, FINAL and RESET while `CFG = 0` write `ERR` and nothing else. -/
def Obligations.NotConstructedRaised : Prop :=
  ∀ (s : State) (p : List Byte), s.cfg = 0 →
    exec (.update p) s = .next { s with err := .notConstructed } ∧
    exec .final s = .next { s with err := .notConstructed } ∧
    exec .reset s = .next { s with err := .notConstructed }

/-- No command but a salted construction faults on a constructed engine (R164), and a construction without salt never
does: `ERR` is not written and `PC` moves past the packet. -/
def Obligations.ConstructedCommandsNeverFault : Prop :=
  ∀ (s : State) (i : Instr),
    (i = .init256 ∨ i = .init224 ∨ (s.cfg = 1 ∧ (i = .final ∨ i = .reset ∨ ∃ p, i = .update p))) →
    ∃ t, exec i s = .next t ∧ t.err = s.err ∧ t.cfg = 1 ∧ t.pc = s.pc + 4 + i.payload.length

/-! ## UPDATE -/

/-- UPDATE (R90) with `Absorb` as R91 prints it, in three phases: the whole next state; the buffer ends with at most
63 bytes; without a Digest State `NotConstructed`; and R90's example. -/
def Obligations.UpdateAbsorbs : Prop :=
  (∀ (s : State) (d : Digest) (p : List Byte), s.digest = some d → d.nx ≤ 63 →
    exec (.update p) s = .next { s with digest := some (absorbPhases d p), pc := s.pc + 4 + p.length } ∧
    (absorbPhases d p).nx ≤ 63 ∧ (absorbPhases d p).w = d.w ∧ (absorbPhases d p).s = d.s ∧
    (absorbPhases d p).nullt = d.nullt) ∧
  (∀ (s : State) (p : List Byte), s.cfg = 0 → exec (.update p) s = .next { s with err := .notConstructed }) ∧
  ∀ salt, absorbPhases (Digest.fresh .w256 salt) [0x61, 0x62, 0x63] =
    { Digest.fresh .w256 salt with buf := [0x61, 0x62, 0x63] }

/-- `Absorb` in closed form (R92): with `stream = buf ++ p` and `k` full blocks in it, Compress runs on blocks 0 to
`k-1` in order, the counter grows by `512*k`, and the tail is buffered. -/
def Obligations.AbsorbClosedForm : Prop :=
  ∀ (d : Digest) (p : List Byte), d.nx ≤ 63 →
    let stream := d.buf ++ p
    let k := (d.nx + p.length) / 64
    absorb d p =
      { d with
        h := (List.range k).foldl
          (fun h i => (compress h d.s (d.t + BitVec.ofNat 64 (512 * i)) d.nullt (blockOf stream i)).1) d.h
        t := d.t + BitVec.ofNat 64 (512 * k)
        buf := stream.drop (64 * k) } ∧
    (absorb d p).nx = (d.nx + p.length) % 64

/-- Chunking invariance (R93): absorbing in two parts or at once is the same, and so are any two sequences of UPDATEs
whose payloads concatenate to the same message, with the record a FINAL after them emits. -/
def Obligations.UpdateChunkingInvariant : Prop :=
  (∀ (d : Digest) (p q : List Byte), absorb (absorb d p) q = absorb d (p ++ q) ∧ absorb d [] = d) ∧
  ∀ (s : State) (ps qs : List (List Byte)), s.cfg = 1 → ps.flatten = qs.flatten →
    ∃ t u, execAll (ps.map Instr.update) s = .next t ∧ execAll (qs.map Instr.update) s = .next u ∧
      t.digest = u.digest ∧ ∃ t' u', exec .final t = .next t' ∧ exec .final u = .next u' ∧
        t'.out = u'.out

/-- UPDATE with an empty payload changes nothing but `PC`, and still faults without a Digest State (R94). -/
def Obligations.ZeroLengthUpdate : Prop :=
  decode [0x02, 0x00, 0x00, 0x00] = .command (.update []) [] ∧
  ∀ s : State,
    (s.cfg = 1 → exec (.update []) s = .next { s with pc := s.pc + 4 }) ∧
    (s.cfg = 0 → exec (.update []) s = .next { s with err := .notConstructed })

/-- The Digest State tracks the message (R28): after a construction or a RESET and then any UPDATEs and FINALs, the
chain value is the result of compressing the whole blocks of the message in order from the initial vector, the counter
is their bits modulo 2^64, and the buffer holds the rest. -/
def Obligations.DigestStateTracksMessage : Prop :=
  ∀ (s : State) (w : Width) (salt : Vector Word 4) (is : List Instr),
    s.digest = some (Digest.fresh w salt) → (∀ i ∈ is, i = .final ∨ ∃ p, i = .update p) →
    let msg := is.flatMap Instr.payload
    let k := msg.length / 64
    ∃ t, execAll is s = .next t ∧ t.err = s.err ∧ t.digest = some
      { w := w
        h := (List.range k).foldl
          (fun h i => (compress h salt (BitVec.ofNat 64 (512 * i)) false (blockOf msg i)).1) (initialVector w)
        s := salt
        t := BitVec.ofNat 64 (512 * k)
        nullt := false
        buf := msg.drop (64 * k) }

/-! ## Words and the compression function -/

/-- The rotation and the wrapping addition of words are R10's formulas on natural numbers. -/
def Obligations.WordArithmeticIsModular : Prop :=
  ∀ (x y : Word) (n : Nat), (x + y).toNat = add32 x.toNat y.toNat ∧
    (0 < n → n < 32 → (rotr32 x n).toNat = rotr32Nat x.toNat n ∧
      ∀ i < 32, (rotr32 x n).getLsbD i = x.getLsbD ((i + n) % 32))

/-- Big-endian conversions (R10, R53, R55): the value of a word made of four bytes, the bytes of a word, the message
words of a 64-byte block, the eight bytes of a length. -/
def Obligations.BigEndianConversions : Prop :=
  (∀ b0 b1 b2 b3 : Byte, (be32 b0 b1 b2 b3).toNat = be32Nat b0 b1 b2 b3 ∧
    be32bytes (be32 b0 b1 b2 b3) = [b0, b1, b2, b3]) ∧
  (∀ (block : List Byte) (k : Fin 16), (parseBlock block)[k].toNat =
    be32Nat (block.getD (4 * k.val) 0) (block.getD (4 * k.val + 1) 0) (block.getD (4 * k.val + 2) 0)
      (block.getD (4 * k.val + 3) 0)) ∧
  ∀ x : Counter, (be64bytes x).map BitVec.toNat =
    (List.range 8).map fun i => x.toNat / 2 ^ (56 - 8 * i) % 256

/-- The G operation (R108) on natural numbers, assignment by assignment as R108 lists them, and nothing but its four
words changed. The indices are those of R109. -/
def Obligations.GOperationAssignments : Prop :=
  ∀ (m v : Vector Word 16) (p : Fin 10) (g : Fin 8) (ia ib ic id : Fin 16),
    ia ≠ ib → ia ≠ ic → ia ≠ id → ib ≠ ic → ib ≠ id → ic ≠ id →
    let i := sigma[p][2 * g.val]
    let j := sigma[p][2 * g.val + 1]
    let a := add32 v[ia].toNat (m[i].toNat ^^^ roundConst[j].toNat)
    let a := add32 a v[ib].toNat
    let d := v[id].toNat ^^^ a
    let d := rotr32Nat d 16
    let c := add32 v[ic].toNat d
    let b := v[ib].toNat ^^^ c
    let b := rotr32Nat b 12
    let a := add32 a (m[j].toNat ^^^ roundConst[i].toNat)
    let a := add32 a b
    let d := d ^^^ a
    let d := rotr32Nat d 8
    let c := add32 c d
    let b := b ^^^ c
    let b := rotr32Nat b 7
    let v' := applyG m p g ia ib ic id v
    v'[ia].toNat = a ∧ v'[ib].toNat = b ∧ v'[ic].toNat = c ∧ v'[id].toNat = d ∧
    ∀ k : Fin 16, k ≠ ia → k ≠ ib → k ≠ ic → k ≠ id → v'[k] = v[k]

/-- Operations of one half-round commute (R113): G operations on disjoint words give the same working array in either
order. -/
def Obligations.DisjointOperationsCommute : Prop :=
  ∀ (m v : Vector Word 16) (p : Fin 10) (g g' : Fin 8) (ia ib ic id ja jb jc jd : Fin 16),
    [ia, ib, ic, id, ja, jb, jc, jd].Nodup →
    applyG m p g ia ib ic id (applyG m p g' ja jb jc jd v) = applyG m p g' ja jb jc jd (applyG m p g ia ib ic id v)

/-- Each row of `SIGMA` contains every value once (R106), so that every message word and every constant is used once
in a round (R109). -/
def Obligations.PermutationRowsArePermutations : Prop :=
  ∀ p : Fin 10, sigma[p].toList.Perm (List.finRange 16) ∧
    ((List.finRange 8).flatMap fun g => [(mixIndices p g).1, (mixIndices p g).2]).Perm (List.finRange 16)

/-- Permutation reuse (R110): round `r` uses row `(r-1) mod 10`, and rounds 11 to 14 do what rounds 1 to 4 do. -/
def Obligations.RoundsReusePermutations : Prop :=
  (∀ r, 1 ≤ r → r ≤ 14 → (permutationRow r).val = (r - 1) % 10) ∧
  ∀ (m v : Vector Word 16) (r : Nat), 11 ≤ r → r ≤ 14 → round m v r = round m v (r - 10)

/-- The working array after step 2 (R103, R104): chain value, constants with salt, constants with the counter's low
half twice and its high half twice; with the flag set it is what a counter of 0 gives. -/
def Obligations.WorkingArrayAfterInjection : Prop :=
  ∀ (h : Vector Word 8) (s : Vector Word 4) (t : Counter),
    let v := injectCounter t false (initWork h s)
    (∀ k : Fin 8, v[k.val] = h[k]) ∧
    (∀ k : Fin 4, v[k.val + 8] = roundConst[k.val] ^^^ s[k]) ∧
    v[12] = roundConst[4] ^^^ lo32 t ∧ v[13] = roundConst[5] ^^^ lo32 t ∧
    v[14] = roundConst[6] ^^^ hi32 t ∧ v[15] = roundConst[7] ^^^ hi32 t ∧
    injectCounter t true (initWork h s) = injectCounter 0 false (initWork h s)

/-- Compress put together (R100, R102, R107, R111): counter advanced by 512 first, fourteen rounds, feed-forward of
the salt in the order 0 to 3 twice. -/
def Obligations.CompressCombines : Prop :=
  ∀ (h : Vector Word 8) (s : Vector Word 4) (t : Counter) (nullt : Bool) (block : List Byte),
    let m := parseBlock block
    let v := [1, 2, 3, 4, 5, 6, 7, 8, 9, 10, 11, 12, 13, 14].foldl (round m) (injectCounter (t + 512) nullt (initWork h s))
    (compress h s t nullt block).2.toNat = (t.toNat + 512) % 2 ^ 64 ∧
    ∀ k : Fin 8, (compress h s t nullt block).1[k] = h[k] ^^^ v[k.val] ^^^ v[k.val + 8] ^^^ s[k.val % 4]

/-! ## FINAL -/

/-- FINAL in closed form (R128's table): the whole next state, the record being `Serialise` of the chain value after
the one or two blocks of the table, each with the counter and the flag the table gives. -/
def Obligations.FinalClosedForm : Prop :=
  ∀ (s : State) (d : Digest), s.digest = some d → d.nx ≤ 63 → d.nullt = false →
    exec .final s = .next { s with out := s.out ++ [closedRecord d], pc := s.pc + 4 }

/-- FINAL does not disturb the message (R130): the Digest State is what it was; a second FINAL appends an equal
record; and a FINAL between two UPDATEs changes nothing of what the second absorbs. -/
def Obligations.FinalLeavesMessage : Prop :=
  ∀ (s : State) (d : Digest), s.digest = some d → ∃ t record,
    exec .final s = .next t ∧ t.digest = some d ∧ t.out = s.out ++ [record] ∧
    (∃ u, exec .final t = .next u ∧ u.digest = some d ∧ u.out = s.out ++ [record, record]) ∧
    ∀ q : List Byte, ∃ u u', exec (.update q) t = .next u ∧ exec (.update q) s = .next u' ∧ u.digest = u'.digest

/-- Counter bookkeeping inside FINAL (R129): every padding branch ends with 56 bytes in the copy's buffer, and at
each compression the counter, after its own increment, is the message length `L`. -/
def Obligations.FinalCounterBookkeeping : Prop :=
  ∀ d : Digest, d.nx ≤ 63 →
    (pad d).nx = 56 ∧ (discount (pad d) 64).t + 512 = messageBits d ∧
    (56 ≤ d.nx → (discount d (512 - 8 * d.nx)).t + 512 = messageBits d) ∧
    (finished d).t = messageBits d ∧ (finished d).buf = []

/-- The record (R56, R127): `W/8` bytes, byte `4k+j` being byte `j` of chain word `k`, most significant first; for
width 224 the eighth word is dropped. -/
def Obligations.RecordIsBigEndianPrefix : Prop :=
  ∀ (h : Vector Word 8) (w : Width),
    (serialise h w).length = w.digestBytes ∧
    ∀ (k : Fin 8) (j : Nat), j < 4 → 4 * k.val + j < w.digestBytes →
      ((serialise h w).getD (4 * k.val + j) 0).toNat = h[k].toNat / 2 ^ (24 - 8 * j) % 256

/-- THE DIGEST IS THE PUBLISHED ONE (R63, R128): after a construction or a RESET and then any UPDATEs and FINALs, FINAL
appends the digest of exactly the bytes of the UPDATEs, computed by padding the whole message first. From 2^64 message
bits on, both sides take their counts modulo 2^64, which is the model's reading of R186 (log entry 11, DEDUCED), and the
record is then no BLAKE digest of the message. -/
def Obligations.FinalEmitsPublishedDigest : Prop :=
  ∀ (s : State) (w : Width) (salt : Vector Word 4) (is : List Instr),
    s.digest = some (Digest.fresh w salt) → (∀ i ∈ is, i = .final ∨ ∃ p, i = .update p) →
    ∃ t, execAll is s = .next t ∧
      exec .final t = .next
        { t with out := t.out ++ [publishedDigest w salt (is.flatMap Instr.payload)], pc := t.pc + 4 }

/-- The one-shot pseudo-commands (R80, R149), from every state: their commands all have an encoding, they append the
digest of the whole sequence, in as many UPDATEs as it takes, and leave the message absorbed. From 2^64 sequence bits on,
both sides take their counts modulo 2^64, which is the model's reading of R186 (log entry 11, DEDUCED), and the record is
then no BLAKE digest of the sequence. -/
def Obligations.OneShotAppendsDigest : Prop :=
  ∀ (s : State) (seq salt : List Byte), salt.length = 16 →
    ∀ c ∈ ([ (.hash256 seq, .w256, zeroSalt), (.hash224 seq, .w224, zeroSalt),
             (.hash256S salt seq, .w256, packSalt salt), (.hash224S salt seq, .w224, packSalt salt) ] :
        List (AsmCommand × Width × Vector Word 4)),
      (∀ i ∈ c.1.expand, i.wellFormed = true) ∧
      ∃ t, execAll c.1.expand s = .next t ∧ t.err = s.err ∧
        t.digest = some (absorb (Digest.fresh c.2.1 c.2.2) seq) ∧
        t.out = s.out ++ [publishedDigest c.2.1 c.2.2 seq]
end

