-- ==== Sys2Proof/Laws/Decode.lean ====
section
/-! SUPPORT. Byte order, and the decoder's and the encoder's small lemmas. -/

namespace Sys2Proof.Laws

open Sys2Proof.Machine

/-- The bytes of a word assembled from four bytes are those bytes (R10, R52). -/
@[simp] theorem be32bytes_be32 (b0 b1 b2 b3 : Byte) : be32bytes (be32 b0 b1 b2 b3) = [b0, b1, b2, b3] := by
  unfold be32bytes be32
  simp only [List.cons.injEq, and_true]
  refine ⟨?_, ?_, ?_, ?_⟩ <;>
    · apply BitVec.eq_of_getLsbD_eq
      intro i hi
      simp only [BitVec.getLsbD_extractLsb', BitVec.getLsbD_append, hi, decide_true, Bool.true_and]
      interval_cases i <;> simp

/-- A word is assembled again from its four bytes (R10, R52). -/
theorem be32_extract (w : Word) :
    be32 (w.extractLsb' 24 8) (w.extractLsb' 16 8) (w.extractLsb' 8 8) (w.extractLsb' 0 8) = w := by
  unfold be32
  apply BitVec.eq_of_getLsbD_eq
  intro i hi
  simp only [BitVec.getLsbD_append, BitVec.getLsbD_extractLsb']
  interval_cases i <;> simp

@[simp] theorem be32bytes_length (w : Word) : (be32bytes w).length = 4 := rfl

@[simp] theorem be64bytes_length (x : Counter) : (be64bytes x).length = 8 := rfl

/-- The decoder on a byte string that starts with the bytes of a header (R57, R78). -/
theorem decode_be32bytes_append (hdr : Word) (rest : List Byte) :
    decode (be32bytes hdr ++ rest) = decodeAfterHeader hdr rest := by
  show decodeAfterHeader (be32 (hdr.extractLsb' 24 8) (hdr.extractLsb' 16 8) (hdr.extractLsb' 8 8)
    (hdr.extractLsb' 0 8)) rest = _
  rw [be32_extract]

/-- All the decoder can answer once the header is known (R78). -/
theorem decodeAfterHeader_cases (hdr : Word) (rest : List Byte) :
    (commandOf hdr = none ∧ decodeAfterHeader hdr rest = .reserved) ∨
    ∃ c, commandOf hdr = some c ∧
      ((rest.length < (lenField hdr).toNat ∧ decodeAfterHeader hdr rest = .payloadIncomplete) ∨
       ((lenField hdr).toNat ≤ rest.length ∧
        decodeAfterHeader hdr rest =
          .command (c.withPayload (rest.take (lenField hdr).toNat)) (rest.drop (lenField hdr).toNat))) := by
  unfold decodeAfterHeader
  cases hc : commandOf hdr with
  | none => simp
  | some c =>
    by_cases hl : rest.length < (lenField hdr).toNat
    · simp [hl]
    · simp [hl]; omega

/-- The length a header announces fits a payload (R70). -/
theorem lenField_le (hdr : Word) : (lenField hdr).toNat ≤ 65535 := by
  have := (lenField hdr).isLt; omega

end Sys2Proof.Laws
end

