-- ==== Sys2Proof/Laws/State.lean ====
section
/-! SUPPORT. One lemma for each field and each update of the state, so that no later proof unfolds a record update. -/

namespace Sys2Proof.Laws

open Sys2Proof.Machine

section Updates
variable (s : State) (d : Digest) (n : Nat) (r bs : List Byte) (e : Err) (nb w : Nat)

@[simp] theorem setDigest_digest : (s.setDigest d).digest = some d := rfl
@[simp] theorem setDigest_err : (s.setDigest d).err = s.err := rfl
@[simp] theorem setDigest_pc : (s.setDigest d).pc = s.pc := rfl
@[simp] theorem setDigest_out : (s.setDigest d).out = s.out := rfl
@[simp] theorem setDigest_cmd : (s.setDigest d).cmd = s.cmd := rfl

@[simp] theorem advance_digest : (s.advance n).digest = s.digest := rfl
@[simp] theorem advance_err : (s.advance n).err = s.err := rfl
@[simp] theorem advance_pc : (s.advance n).pc = s.pc + 4 + n := rfl
@[simp] theorem advance_out : (s.advance n).out = s.out := rfl
@[simp] theorem advance_cmd : (s.advance n).cmd = s.cmd := rfl

@[simp] theorem emit_digest : (s.emit r).digest = s.digest := rfl
@[simp] theorem emit_err : (s.emit r).err = s.err := rfl
@[simp] theorem emit_pc : (s.emit r).pc = s.pc := rfl
@[simp] theorem emit_out : (s.emit r).out = s.out ++ [r] := rfl
@[simp] theorem emit_cmd : (s.emit r).cmd = s.cmd := rfl

@[simp] theorem raiseFault_digest : (raiseFault e s).digest = s.digest := rfl
@[simp] theorem raiseFault_err : (raiseFault e s).err = e := rfl
@[simp] theorem raiseFault_pc : (raiseFault e s).pc = s.pc := rfl
@[simp] theorem raiseFault_out : (raiseFault e s).out = s.out := rfl
@[simp] theorem raiseFault_cmd : (raiseFault e s).cmd = s.cmd := rfl

@[simp] theorem supply_digest : (s.supply bs).digest = s.digest := rfl
@[simp] theorem supply_err : (s.supply bs).err = s.err := rfl
@[simp] theorem supply_pc : (s.supply bs).pc = s.pc := rfl
@[simp] theorem supply_out : (s.supply bs).out = s.out := rfl
@[simp] theorem supply_cmd : (s.supply bs).cmd = s.cmd.store s.cmd.avail bs := rfl

@[simp] theorem withFetchWord_digest : (s.withFetchWord nb w).digest = s.digest := rfl
@[simp] theorem withFetchWord_err : (s.withFetchWord nb w).err = s.err := rfl
@[simp] theorem withFetchWord_pc : (s.withFetchWord nb w).pc = s.pc := rfl
@[simp] theorem withFetchWord_out : (s.withFetchWord nb w).out = s.out := rfl
@[simp] theorem withFetchWord_cmd : (s.withFetchWord nb w).cmd = s.cmd.store s.pc (layoutTableWord nb w) := rfl

@[simp] theorem hardwareReset_eq : hardwareReset s = State.reset := rfl

end Updates

section Reset

@[simp] theorem reset_digest : State.reset.digest = none := rfl
@[simp] theorem reset_err : State.reset.err = .none := rfl
@[simp] theorem reset_pc : State.reset.pc = 0 := rfl
@[simp] theorem reset_out : State.reset.out = [] := rfl
@[simp] theorem reset_cmd : State.reset.cmd = [] := rfl

end Reset

section Digests
variable (d : Digest) (n : Nat) (block : List Byte) (w : Width) (salt : Vector Word 4)

@[simp] theorem compressBlock_w : (d.compressBlock block).w = d.w := rfl
@[simp] theorem compressBlock_h : (d.compressBlock block).h = (compress d.h d.s d.t d.nullt block).1 := rfl
@[simp] theorem compressBlock_s : (d.compressBlock block).s = d.s := rfl
@[simp] theorem compressBlock_t : (d.compressBlock block).t = d.t + 512 := rfl
@[simp] theorem compressBlock_nullt : (d.compressBlock block).nullt = d.nullt := rfl
@[simp] theorem compressBlock_buf : (d.compressBlock block).buf = [] := rfl

@[simp] theorem discount_w : (discount d n).w = d.w := rfl
@[simp] theorem discount_h : (discount d n).h = d.h := rfl
@[simp] theorem discount_s : (discount d n).s = d.s := rfl
@[simp] theorem discount_t : (discount d n).t = d.t - BitVec.ofNat 64 n := rfl
@[simp] theorem discount_nullt : (discount d n).nullt = d.nullt := rfl
@[simp] theorem discount_buf : (discount d n).buf = d.buf := rfl

@[simp] theorem skipCounter_w : (skipCounter d).w = d.w := rfl
@[simp] theorem skipCounter_h : (skipCounter d).h = d.h := rfl
@[simp] theorem skipCounter_s : (skipCounter d).s = d.s := rfl
@[simp] theorem skipCounter_t : (skipCounter d).t = d.t := rfl
@[simp] theorem skipCounter_nullt : (skipCounter d).nullt = true := rfl
@[simp] theorem skipCounter_buf : (skipCounter d).buf = d.buf := rfl

@[simp] theorem fresh_w : (Digest.fresh w salt).w = w := rfl
@[simp] theorem fresh_h : (Digest.fresh w salt).h = initialVector w := rfl
@[simp] theorem fresh_s : (Digest.fresh w salt).s = salt := rfl
@[simp] theorem fresh_t : (Digest.fresh w salt).t = 0 := rfl
@[simp] theorem fresh_nullt : (Digest.fresh w salt).nullt = false := rfl
@[simp] theorem fresh_buf : (Digest.fresh w salt).buf = [] := rfl

@[simp] theorem restarted_eq : d.restarted = Digest.fresh d.w d.s := rfl

end Digests

/-- `ERR` is not 0 exactly when the fault code is not `None` (R31). -/
@[simp] theorem isHalted_eq_false_iff (s : State) : s.isHalted = false ↔ s.err = .none := by
  cases h : s.err <;> simp [State.isHalted, Err.code, h]

/-- `CFG` is 0 exactly when there is no Digest State (R30). -/
theorem cfg_eq_zero_iff (s : State) : s.cfg = 0 ↔ s.digest = none := by
  cases h : s.digest <;> simp [State.cfg, h]

/-- `CFG` is 1 exactly when there is a Digest State (R30). -/
theorem cfg_eq_one_iff (s : State) : s.cfg = 1 ↔ ∃ d, s.digest = some d := by
  cases h : s.digest <;> simp [State.cfg, h]

end Sys2Proof.Laws
end

