-- ==== Sys2Proof/Laws/Ops.lean ====
section
/-! SUPPORT. For each shared operation, once, everything it can do. -/

namespace Sys2Proof.Laws

open Sys2Proof.Machine

/-- A command that needs a Digest State either raises `NotConstructed` or does its work (R163). -/
theorem whenConstructed_next_iff (s t : State) (f : Digest → State) :
    whenConstructed s f = .next t ↔
      (s.digest = none ∧ t = raiseFault .notConstructed s) ∨ ∃ d, s.digest = some d ∧ t = f d := by
  unfold whenConstructed
  cases s.digest <;> simp [eq_comm]

@[simp] theorem whenConstructed_of_some {s : State} {d : Digest} (h : s.digest = some d) (f : Digest → State) :
    whenConstructed s f = .next (f d) := by
  simp [whenConstructed, h]

@[simp] theorem whenConstructed_of_none {s : State} (h : s.digest = none) (f : Digest → State) :
    whenConstructed s f = .next (raiseFault .notConstructed s) := by
  simp [whenConstructed, h]

/-- A salted construction either raises `InvalidSaltLength` or constructs (R141, R161). -/
theorem constructSalted_cases (w : Width) (p : List Byte) (s : State) :
    (p.length ≠ 16 ∧ constructSalted w p s = raiseFault .invalidSaltLength s) ∨
    (p.length = 16 ∧ constructSalted w p s = construct w (packSalt p) 16 s) := by
  by_cases h : p.length = 16
  · right; simp [constructSalted, saltOperand, h]
  · left; simp [constructSalted, saltOperand, h]

/-- Every command answers a next state: its effect, or a fault taken. -/
theorem exec_is_next (i : Instr) (s : State) : ∃ t, exec i s = .next t := by
  cases i <;> cases h : s.digest <;>
    simp [exec, execInit256, execInit224, execInit256S, execInit224S, execUpdate, execFinal, execReset, h]

/-- All that one command can do to a state. -/
theorem exec_cases {i : Instr} {s t : State} (h : exec i s = .next t) :
    (∃ e, e ≠ .none ∧ t = raiseFault e s) ∨
    (∃ w salt, t = construct w salt i.payload.length s) ∨
    (∃ d, s.digest = some d ∧ t = (s.setDigest (absorb d i.payload)).advance i.payload.length) ∨
    (∃ d, s.digest = some d ∧ t = (s.emit (digestRecord d)).advance i.payload.length) ∨
    (∃ d, s.digest = some d ∧ t = (s.setDigest d.restarted).advance i.payload.length) := by
  cases i with
  | init256 => cases h; exact .inr (.inl ⟨_, _, rfl⟩)
  | init224 => cases h; exact .inr (.inl ⟨_, _, rfl⟩)
  | init256S p =>
    cases h
    rcases constructSalted_cases .w256 p s with ⟨-, h⟩ | ⟨hp, h⟩
    · exact .inl ⟨.invalidSaltLength, by decide, h⟩
    · exact .inr (.inl ⟨.w256, packSalt p, by rw [h]; simp only [Instr.payload, hp]⟩)
  | init224S p =>
    cases h
    rcases constructSalted_cases .w224 p s with ⟨-, h⟩ | ⟨hp, h⟩
    · exact .inl ⟨.invalidSaltLength, by decide, h⟩
    · exact .inr (.inl ⟨.w224, packSalt p, by rw [h]; simp only [Instr.payload, hp]⟩)
  | update p =>
    rcases (whenConstructed_next_iff _ _ _).1 h with ⟨-, h⟩ | ⟨d, hd, h⟩
    · exact .inl ⟨_, by decide, h⟩
    · exact .inr (.inr (.inl ⟨d, hd, h⟩))
  | final =>
    rcases (whenConstructed_next_iff _ _ _).1 h with ⟨-, h⟩ | ⟨d, hd, h⟩
    · exact .inl ⟨_, by decide, h⟩
    · exact .inr (.inr (.inr (.inl ⟨d, hd, h⟩)))
  | reset =>
    rcases (whenConstructed_next_iff _ _ _).1 h with ⟨-, h⟩ | ⟨d, hd, h⟩
    · exact .inl ⟨_, by decide, h⟩
    · exact .inr (.inr (.inr (.inr ⟨d, hd, h⟩)))

/-- All that one step can do: take `IllegalCommand`, or execute the command fetched, both with `ERR = 0` (R78). -/
theorem step_next_iff (s t : State) :
    step s = .next t ↔
      s.err = .none ∧
        ((fetch s = .reserved ∧ t = raiseFault .illegalCommand s) ∨
         ∃ i rest, fetch s = .command i rest ∧ exec i s = .next t) := by
  unfold step
  cases hh : s.isHalted with
  | true =>
    have : s.err ≠ .none := fun he => by rw [(isHalted_eq_false_iff s).2 he] at hh; cases hh
    simp [this]
  | false =>
    have he := (isHalted_eq_false_iff s).1 hh
    cases hf : fetch s <;> simp [he, eq_comm]

end Sys2Proof.Laws
end

