-- ==== Sys2Proof/Laws/Absorb.lean ====
section
/-! SUPPORT. The absorb function's small lemmas: what one byte does, and what no byte string changes. -/

namespace Sys2Proof.Laws

open Sys2Proof.Machine

@[simp] theorem absorb_nil (d : Digest) : absorb d [] = d := rfl

@[simp] theorem absorb_cons (d : Digest) (b : Byte) (p : List Byte) :
    absorb d (b :: p) = absorb (absorbByte d b) p := rfl

/-- One byte either completes a block, which is compressed at once, or is buffered (R92). -/
theorem absorbByte_cases (d : Digest) (b : Byte) :
    (d.nx = 63 ∧ absorbByte d b = d.compressBlock (d.buf ++ [b])) ∨
    (d.nx ≠ 63 ∧ absorbByte d b = { d with buf := d.buf ++ [b] }) := by
  by_cases h : d.nx = 63
  · left; unfold Digest.nx at h; simp [absorbByte, Digest.nx, h]
  · right; unfold Digest.nx at h; simp [absorbByte, Digest.nx, h]

@[simp] theorem absorbByte_w (d : Digest) (b : Byte) : (absorbByte d b).w = d.w := by
  rcases absorbByte_cases d b with ⟨-, h⟩ | ⟨-, h⟩ <;> simp [h]

@[simp] theorem absorbByte_s (d : Digest) (b : Byte) : (absorbByte d b).s = d.s := by
  rcases absorbByte_cases d b with ⟨-, h⟩ | ⟨-, h⟩ <;> simp [h]

@[simp] theorem absorbByte_nullt (d : Digest) (b : Byte) : (absorbByte d b).nullt = d.nullt := by
  rcases absorbByte_cases d b with ⟨-, h⟩ | ⟨-, h⟩ <;> simp [h]

/-- Absorbing never changes the width (R90, R91). -/
@[simp] theorem absorb_w (p : List Byte) (d : Digest) : (absorb d p).w = d.w := by
  induction p generalizing d with
  | nil => rfl
  | cons b p ih => rw [absorb_cons, ih, absorbByte_w]

/-- Absorbing never changes the salt (R90, R91). -/
@[simp] theorem absorb_s (p : List Byte) (d : Digest) : (absorb d p).s = d.s := by
  induction p generalizing d with
  | nil => rfl
  | cons b p ih => rw [absorb_cons, ih, absorbByte_s]

/-- Absorbing never changes the skip-counter flag (R90, R91). -/
@[simp] theorem absorb_nullt (p : List Byte) (d : Digest) : (absorb d p).nullt = d.nullt := by
  induction p generalizing d with
  | nil => rfl
  | cons b p ih => rw [absorb_cons, ih, absorbByte_nullt]

/-- One byte moves the fill count on by one, 64 counting as 0 (R92). -/
theorem absorbByte_nx {d : Digest} (h : d.nx < 64) (b : Byte) : (absorbByte d b).nx = (d.nx + 1) % 64 := by
  rcases absorbByte_cases d b with ⟨h1, h2⟩ | ⟨h1, h2⟩
  · rw [h2, h1]; rfl
  · rw [h2]; simp only [Digest.nx, List.length_append, List.length_singleton] at h h1 ⊢; omega

/-- Bytes that do not complete a block are buffered, and nothing else changes. -/
theorem absorb_of_short {p : List Byte} {d : Digest} (h : d.nx + p.length < 64) :
    absorb d p = { d with buf := d.buf ++ p } := by
  induction p generalizing d with
  | nil => simp
  | cons b p ih =>
    simp only [List.length_cons] at h
    rcases absorbByte_cases d b with ⟨h1, h2⟩ | ⟨h1, h2⟩
    · omega
    · rw [absorb_cons, h2, ih]
      · simp
      · simp only [Digest.nx, List.length_append, List.length_singleton] at h ⊢; omega

end Sys2Proof.Laws
end

