-- ==== Sys2Proof/Laws/Memory.lean ====
section
/-! SUPPORT. The byte space `CMD`: what storing does to a byte, to the bytes available at an offset, and to the
canonical form. -/

namespace Sys2Proof.Laws

open Sys2Proof.Machine

theorem reset_cmd_wf : State.reset.cmd.wf := List.Pairwise.nil

/-! ## Cells of a byte string -/

@[simp] theorem cellsFrom_nil (a : Nat) : cellsFrom a [] = [] := rfl
@[simp] theorem cellsFrom_cons (a : Nat) (b : Byte) (bs : List Byte) :
    cellsFrom a (b :: bs) = (a, b) :: cellsFrom (a + 1) bs := rfl

theorem mem_cellsFrom {bs : List Byte} {a : Nat} {c : Host.Cell} (h : c ∈ cellsFrom a bs) :
    a ≤ c.1 ∧ c.1 < a + bs.length := by
  induction bs generalizing a with
  | nil => simp at h
  | cons b bs ih =>
    rcases List.mem_cons.1 h with rfl | h
    · simp
    · have := ih h; simp only [List.length_cons]; omega

theorem cellsFrom_wf (bs : List Byte) (a : Nat) : Memory.wf (cellsFrom a bs) := by
  induction bs generalizing a with
  | nil => exact List.Pairwise.nil
  | cons b bs ih =>
    refine List.Pairwise.cons (fun c hc => ?_) (ih _)
    have := mem_cellsFrom hc; show a < c.1; omega

theorem cellsFrom_find? (bs : List Byte) (a x : Nat) :
    Memory.read? (cellsFrom a bs) x = if a ≤ x then bs[x - a]? else none := by
  induction bs generalizing a with
  | nil => simp [Memory.read?]
  | cons b bs ih =>
    have ih := ih (a + 1)
    simp only [Memory.read?, cellsFrom_cons, List.find?_cons] at ih ⊢
    by_cases hx : a = x
    · subst hx; simp
    · have hb : (a == x) = false := by simp [hx]
      simp only [hb]
      rw [ih]
      by_cases hax : a ≤ x
      · have h1 : a + 1 ≤ x := by omega
        have h2 : x - a = (x - (a + 1)) + 1 := by omega
        simp [hax, h1, h2]
      · have h1 : ¬ a + 1 ≤ x := by omega
        simp [hax, h1]

/-! ## Storing -/

/-- Storing keeps the canonical form. -/
theorem store_wf {m : Memory} (h : m.wf) (a : Nat) (bs : List Byte) : (m.store a bs).wf := by
  unfold Memory.store Memory.wf
  rw [List.pairwise_append, List.pairwise_append]
  refine ⟨⟨h.filter _, cellsFrom_wf bs a, ?_⟩, h.filter _, ?_⟩
  · intro c hc c' hc'
    have h1 : c.1 < a := by simpa using (List.mem_filter.1 hc).2
    have h2 := mem_cellsFrom hc'
    omega
  · intro c hc c' hc'
    have h2 : a + bs.length ≤ c'.1 := by simpa using (List.mem_filter.1 hc').2
    rcases List.mem_append.1 hc with hc | hc
    · have h1 : c.1 < a := by simpa using (List.mem_filter.1 hc).2
      omega
    · have h1 := mem_cellsFrom hc
      omega

theorem read?_filter_of_true (m : Memory) (p : Nat → Bool) (x : Nat) (hx : p x = true) :
    Memory.read? (m.filter fun c => p c.1) x = m.read? x := by
  unfold Memory.read?
  congr 1
  induction m with
  | nil => rfl
  | cons c m ih =>
    by_cases hp : p c.1 = true
    · simp [hp, List.find?_cons, ih]
    · have hne : (c.1 == x) = false := by
        simp only [beq_eq_false_iff_ne]; intro h; rw [h] at hp; exact hp hx
      simp [hp, hne, ih]

theorem read?_filter_of_false (m : Memory) (p : Nat → Bool) (x : Nat) (hx : p x = false) :
    Memory.read? (m.filter fun c => p c.1) x = none := by
  unfold Memory.read?
  rw [Option.map_eq_none_iff, List.find?_eq_none]
  intro c hc h
  have h1 : p c.1 = true := by simpa using (List.mem_filter.1 hc).2
  have h2 : c.1 = x := by simpa using h
  rw [h2, hx] at h1
  exact absurd h1 (by decide)

theorem read?_append (m m' : Memory) (x : Nat) :
    Memory.read? (m ++ m') x = (m.read? x).or (m'.read? x) := by
  unfold Memory.read?
  rw [List.find?_append]
  cases List.find? (fun c => c.1 == x) m <;> simp

/-- What a byte reads as after a store: the stored byte inside the range, what it read as before outside it. -/
theorem read?_store (m : Memory) (a : Nat) (bs : List Byte) (x : Nat) :
    (m.store a bs).read? x = if a ≤ x ∧ x < a + bs.length then bs[x - a]? else m.read? x := by
  unfold Memory.store
  rw [read?_append, read?_append, cellsFrom_find?]
  by_cases h1 : x < a
  · rw [read?_filter_of_true m (fun y => decide (y < a)) x (by simpa using h1),
      read?_filter_of_false m (fun y => decide (a + bs.length ≤ y)) x (by simp; omega)]
    have h2 : ¬ a ≤ x := by omega
    simp [h2]
  · rw [read?_filter_of_false m (fun y => decide (y < a)) x (by simpa using h1)]
    have h2 : a ≤ x := by omega
    by_cases h3 : x < a + bs.length
    · rw [read?_filter_of_false m (fun y => decide (a + bs.length ≤ y)) x (by simp; omega)]
      simp [h2, h3]
    · rw [read?_filter_of_true m (fun y => decide (a + bs.length ≤ y)) x (by simp; omega)]
      have h4 : bs[x - a]? = none := by rw [List.getElem?_eq_none_iff]; omega
      simp [h2, h3, h4]

/-! ## The bytes available at an offset -/

theorem run_eq_nil_of_lt {m : Memory} {a : Nat} (h : ∀ c ∈ m, a < c.1) : m.run a = [] := by
  cases m with
  | nil => rfl
  | cons c m =>
    obtain ⟨x, b⟩ := c
    have : a < x := h (x, b) (by simp)
    simp [Memory.run, show ¬ x < a by omega, show ¬ x = a by omega]

/-- A cell below the offset takes no part in what is available there. -/
theorem run_append_of_lt {m : Memory} {a : Nat} (h : ∀ c ∈ m, c.1 < a) (m' : Memory) :
    Memory.run (m ++ m') a = m'.run a := by
  induction m with
  | nil => rfl
  | cons c m ih =>
    obtain ⟨x, b⟩ := c
    have hx : x < a := h (x, b) (by simp)
    simp only [List.cons_append, Memory.run, hx, if_true]
    exact ih fun c hc => h c (by simp [hc])

/-- A byte string stored at an offset is available there, followed by what stands after it. -/
theorem run_cellsFrom_append (bs : List Byte) (a : Nat) (m : Memory) :
    Memory.run (cellsFrom a bs ++ m) a = bs ++ m.run (a + bs.length) := by
  induction bs generalizing a with
  | nil => simp
  | cons b bs ih =>
    simp only [cellsFrom_cons, List.cons_append, Memory.run, lt_irrefl, if_false, if_true, ih,
      List.length_cons]
    rw [show a + 1 + bs.length = a + (bs.length + 1) by omega]

/-- After a store, the stored bytes are available at their offset, followed by what stands after them. -/
theorem run_store (m : Memory) (a : Nat) (bs : List Byte) :
    (m.store a bs).run a = bs ++ Memory.run (m.filter fun c => a + bs.length ≤ c.1) (a + bs.length) := by
  unfold Memory.store
  rw [List.append_assoc, run_append_of_lt (fun c hc => by simpa using (List.mem_filter.1 hc).2),
    run_cellsFrom_append]

/-- What is available at an offset, one byte at a time. -/
theorem run_eq_cons_iff {m : Memory} (h : m.wf) (a : Nat) :
    m.run a = match m.read? a with | some b => b :: m.run (a + 1) | none => [] := by
  induction m with
  | nil => rfl
  | cons c m ih =>
    obtain ⟨x, b⟩ := c
    have hm : Memory.wf m := (List.pairwise_cons.1 h).2
    have hlt : ∀ c ∈ m, x < c.1 := (List.pairwise_cons.1 h).1
    rcases Nat.lt_trichotomy x a with hx | hx | hx
    · have : (x == a) = false := by simp; omega
      have hr : Memory.read? ((x, b) :: m) a = Memory.read? m a := by
        simp [Memory.read?, this]
      rw [hr]
      simp only [Memory.run, hx, if_true, show x < a + 1 by omega]
      exact ih hm
    · subst hx
      have hr : Memory.read? ((x, b) :: m) x = some b := by simp [Memory.read?]
      rw [hr]
      simp [Memory.run]
    · have hr : Memory.read? ((x, b) :: m) a = none := by
        unfold Memory.read?
        rw [Option.map_eq_none_iff, List.find?_eq_none]
        intro c hc
        rcases List.mem_cons.1 hc with rfl | hc
        · simp; omega
        · have := hlt c hc; simp; omega
      rw [hr]
      simp [Memory.run, show ¬ x < a by omega, show ¬ x = a by omega]

/-- A byte present lies below `avail`. -/
theorem lt_avail_of_mem {m : Memory} (h : m.wf) {c : Host.Cell} (hc : c ∈ m) : c.1 < m.avail := by
  unfold Memory.avail
  cases hl : m.getLast? with
  | none => rw [List.getLast?_eq_none_iff] at hl; subst hl; simp at hc
  | some l =>
    obtain ⟨ys, rfl⟩ := List.getLast?_eq_some_iff.1 hl
    simp only [Option.map_some, Option.getD_some]
    rcases List.mem_append.1 hc with hc | hc
    · have := (List.pairwise_append.1 h).2.2 c hc l (by simp); omega
    · simp only [List.mem_singleton] at hc; subst hc; omega

end Sys2Proof.Laws
end

