-- ==== Sys2Proof/Laws/PerInstr.lean ====
section
/-! SUPPORT. The family PacketLength: the packet of a command is its 4-byte header and its payload, and for a
well-formed command the header's `LEN` is the payload's length (R70, R75). One lemma for each constructor. -/

namespace Sys2Proof.Laws.PacketLength

open Sys2Proof.Machine

/-- The length of a packet, and the `LEN` field of its header (R70, R71, R75). -/
def Statement (i : Instr) : Prop :=
  (encode i).length = 4 + i.payload.length ∧
    (i.wellFormed = true → (lenField (encodeHeader i)).toNat = i.payload.length)

/-- The `LEN` field of a header put together from its fields (R71). -/
theorem lenField_headerWord (opc : BitVec 8) (salt w224 : BitVec 1) (len : Nat) :
    lenField (headerWord opc salt w224 len) = BitVec.ofNat 16 len := by
  unfold lenField headerWord
  apply BitVec.eq_of_getLsbD_eq
  intro i hi
  simp only [BitVec.getLsbD_extractLsb', hi, decide_true, Bool.true_and, Nat.zero_add]
  rw [BitVec.getLsbD_append]
  simp [hi]

/-- The `LEN` field of a header put together for a payload that fits it (R71). -/
theorem lenField_of_fits {p : List Byte} (h : payloadFits p = true) (opc : BitVec 8) (salt w224 : BitVec 1) :
    (lenField (headerWord opc salt w224 p.length)).toNat = p.length := by
  have hp : p.length ≤ 65535 := of_decide_eq_true h
  rw [lenField_headerWord, BitVec.toNat_ofNat]
  omega

theorem init256 : Statement .init256 := ⟨rfl, fun _ => rfl⟩
theorem init224 : Statement .init224 := ⟨rfl, fun _ => rfl⟩
theorem init256S (salt : List Byte) : Statement (.init256S salt) :=
  ⟨by simp [encode, Instr.payload], fun h => lenField_of_fits h _ _ _⟩
theorem init224S (salt : List Byte) : Statement (.init224S salt) :=
  ⟨by simp [encode, Instr.payload], fun h => lenField_of_fits h _ _ _⟩
theorem update (bytes : List Byte) : Statement (.update bytes) :=
  ⟨by simp [encode, Instr.payload], fun h => lenField_of_fits h _ _ _⟩
theorem final : Statement .final := ⟨rfl, fun _ => rfl⟩
theorem reset : Statement .reset := ⟨rfl, fun _ => rfl⟩

end Sys2Proof.Laws.PacketLength
end

