-- ==== Sys2Proof/Laws/Tables.lean ====
section
/-! SUPPORT. Facts about the tables and the word functions that proofs about the compression function start from. -/

namespace Sys2Proof.Laws

open Sys2Proof.Machine

/-- The permutation rows of rounds 1 to 14 (R110). -/
theorem permutationRow_rounds :
    (List.range' 1 14).map permutationRow = [0, 1, 2, 3, 4, 5, 6, 7, 8, 9, 0, 1, 2, 3] := by decide

/-- The fourteen rounds written out (R107). -/
theorem allRounds_eq (m v : Vector Word 16) :
    allRounds m v = [1, 2, 3, 4, 5, 6, 7, 8, 9, 10, 11, 12, 13, 14].foldl (round m) v := rfl

/-- The counter Compress returns (R102). -/
@[simp] theorem compress_counter (h : Vector Word 8) (s : Vector Word 4) (t : Counter) (nullt : Bool)
    (block : List Byte) : (compress h s t nullt block).2 = t + 512 := rfl

end Sys2Proof.Laws
end

