-- ==== Sys2Proof/Tests/Slice0.lean ====
section
/-! SUPPORT. The model's own tests, each with expected values from spec/ (95_test_vectors.md and the rules named), and
one witness for each statement that has hypotheses. -/

namespace Sys2Proof.Tests

open Sys2Proof Sys2Proof.Machine

/-! ## Helpers -/

/-- The state after hardware reset, with these bytes supplied. -/
def streamState (bytes : List Byte) : State := State.reset.supply bytes

/-- A Digest State of width 256 without salt, with this much absorbed. -/
def plain256 (buf : List Byte) : Digest := { Digest.fresh .w256 zeroSalt with buf := buf }

/-- A constructed engine with that Digest State and these bytes supplied. -/
def constructed (buf bytes : List Byte) : State := { streamState bytes with digest := some (plain256 buf) }

/-- The next state, where there is one. -/
def nextOf (r : Result) : Option State :=
  match r with
  | .next t => some t
  | _ => none

/-- The reason a step did not happen, where it did not. -/
def faultOf (r : Result) : Option Fault :=
  match r with
  | .fault f => some f
  | _ => none

/-- One number for a byte string, most significant byte first, so that a digest is written as it is printed. -/
def asNumber (bytes : List Byte) : Nat := bytes.foldl (fun n b => 256 * n + b.toNat) 0

/-- ASCII `1234567890123456`. -/
def digitsSalt : List Byte :=
  [0x31, 0x32, 0x33, 0x34, 0x35, 0x36, 0x37, 0x38, 0x39, 0x30, 0x31, 0x32, 0x33, 0x34, 0x35, 0x36]

/-! ## WellFormed: each check refuses an ill-formed term (R70) -/

/-- The check looks at the payload's length alone. -/
theorem payloadFits_of_length {p : List Byte} {n : Nat} (h : p.length = n) :
    payloadFits p = decide (n ≤ 65535) := by subst h; rfl

theorem test_update_too_long_ill_formed (b : Byte) :
    (Instr.update (List.replicate 65536 b)).wellFormed = false :=
  payloadFits_of_length List.length_replicate

theorem test_init256S_too_long_ill_formed (b : Byte) :
    (Instr.init256S (List.replicate 65536 b)).wellFormed = false :=
  payloadFits_of_length List.length_replicate

theorem test_init224S_too_long_ill_formed (b : Byte) :
    (Instr.init224S (List.replicate 65536 b)).wellFormed = false :=
  payloadFits_of_length List.length_replicate

theorem test_update_longest_well_formed (b : Byte) :
    (Instr.update (List.replicate 65535 b)).wellFormed = true :=
  payloadFits_of_length List.length_replicate

/-! ## Decoding: every row's word, written out from R73 and R85 -/

theorem test_decode_init256 : decode [0x01, 0x00, 0x00, 0x00] = .command .init256 [] := by decide
theorem test_decode_init224 : decode [0x01, 0x01, 0x00, 0x00] = .command .init224 [] := by decide
theorem test_decode_init256S : decode ([0x01, 0x02, 0x00, 0x10] ++ digitsSalt) = .command (.init256S digitsSalt) [] := by
  decide
theorem test_decode_init224S : decode ([0x01, 0x03, 0x00, 0x10] ++ digitsSalt) = .command (.init224S digitsSalt) [] := by
  decide
theorem test_decode_update :
    decode [0x02, 0x00, 0x00, 0x03, 0x61, 0x62, 0x63, 0x03] = .command (.update [0x61, 0x62, 0x63]) [0x03] := by decide
theorem test_decode_final : decode [0x03, 0x00, 0x00, 0x00] = .command .final [] := by decide
theorem test_decode_reset : decode [0x04, 0x00, 0x00, 0x00] = .command .reset [] := by decide

/-- `LEN` is big-endian (R70, R85: 300 is `01 2c`). -/
theorem test_decode_len_big_endian : encode (.update (List.replicate 300 0)) = [0x02, 0x00, 0x01, 0x2c] ++ List.replicate 300 0 := by
  decide +kernel

theorem test_decode_reserved :
    [ [0x00, 0x00, 0x00, 0x00], [0x05, 0x00, 0x00, 0x00], [0x01, 0x04, 0x00, 0x00], [0x01, 0x80, 0x00, 0x00],
      [0x01, 0x01, 0x00, 0x01], [0x02, 0x01, 0x00, 0x00], [0x02, 0x02, 0x00, 0x00], [0x03, 0x00, 0x00, 0x01],
      [0x04, 0x00, 0x00, 0x01], [0x03, 0x01, 0x00, 0x00], [0x01, 0x00, 0x00, 0x10] ].map decode
      = List.replicate 11 .reserved := by decide

theorem test_decode_incomplete :
    decode [0x01, 0x00, 0x00] = .headerIncomplete ∧ decode [0x02, 0x00, 0x00, 0x05, 0x61, 0x62] = .payloadIncomplete := by
  decide

/-- Every row of opcode_table.json, by its match word. -/
theorem test_table_words :
    [0x01000000, 0x01010000, 0x01020000, 0x01030000, 0x02000000, 0x03000000, 0x04000000].map (decodeTableWord 32)
      = [some .init256, some .init224, some (.init256S []), some (.init224S []), some (.update []), some .final,
         some .reset] := by decide

theorem test_table_word_operand : decodeTableWord 32 0x02000002 = some (.update [0, 0]) := by decide

theorem test_fetch_word_runs_first :
    step (State.reset.withFetchWord 32 0x01010000) = exec .init224 (State.reset.withFetchWord 32 0x01010000) := rfl

/-! ## The compression function -/

/-- V-G3. -/
theorem test_rotations : rotr32 0x80000001 7 = 0x03000000 ∧ rotr32 0x12345678 16 = 0x56781234 := by decide

/-- V-G1: hand-checkable inputs. -/
theorem test_mixG_zero :
    mixG 0 0 0x243F6A88 0x85A308D3 ⟨0, 0, 0, 0⟩ = ⟨0x04130093, 0x20C5A196, 0x38E04628, 0x300CC085⟩ := by decide

/-- V-G2: every addition wraps. -/
theorem test_mixG_wraps :
    mixG 0xFFFFFFFF 0xFFFFFFFF 0x243F6A88 0x85A308D3 ⟨0xFFFFFFFF, 0xFFFFFFFF, 0xFFFFFFFF, 0xFFFFFFFF⟩
      = ⟨0xFBFCFF48, 0x76A22FBB, 0xF4C8AF1C, 0xEBF3297A⟩ := by decide

/-- V-G4: rounds 2, 11 and 14. -/
theorem test_indices :
    (mixIndices (permutationRow 2) 5, mixIndices (permutationRow 11) 7, mixIndices (permutationRow 14) 0)
      = ((0, 2), (14, 15), (7, 9)) := by decide

/-- V-C6: the counter's high half is not zero; all 64 bytes of the block differ. -/
theorem test_compress_high_counter :
    compress iv256 zeroSalt 0x00000100FFFFFE00 false ((List.range 64).map fun k => BitVec.ofNat 8 k)
      = (#v[0xBB422A56, 0xAB7526F0, 0x5DF554CB, 0x33392A92, 0xBE606C22, 0xDA8E8317, 0x5A3F6771, 0x77EC39B6],
         0x0000010100000000) := by decide +kernel

/-! ## One command on a small state -/

/-- R140, R147: a construction replaces what was absorbed, and leaves `OUT`. -/
theorem test_init256_replaces :
    (nextOf (exec .init256 { constructed [0x61] [] with out := [[7]] })).map (fun t => (t.digest, t.pc, t.out))
      = some (some (plain256 []), 4, [[7]]) := by decide

/-- V-L1. -/
theorem test_init224 :
    (nextOf (exec .init224 State.reset)).map (fun t => (t.digest.map fun d => (d.w, d.h[0], d.h[7]), t.cfg))
      = some (some (.w224, 0xC1059ED8, 0xBEFA4FA4), 1) := by decide

/-- R141's example. -/
theorem test_init256S_packs_salt :
    (nextOf (exec (.init256S digitsSalt) State.reset)).map (fun t => (t.digest.map fun d => d.s, t.pc))
      = some (some #v[0x31323334, 0x35363738, 0x39303132, 0x33343536], 20) := by decide

/-- V-X26: a salt of 15 bytes writes `ERR` alone; the Digest State there was stays. -/
theorem test_init256S_bad_length :
    exec (.init256S (List.replicate 15 0x31)) (constructed [0x61] [])
      = .next { constructed [0x61] [] with err := .invalidSaltLength } := rfl

/-- V-L2. -/
theorem test_init224S :
    (nextOf (exec (.init224S digitsSalt) State.reset)).map (fun t => t.digest.map fun d => (d.h[0], d.s[3], d.buf))
      = some (some (0xC1059ED8, 0x33343536, [])) := by decide

/-- V-X19: a supplied salt of length 0. -/
theorem test_init224S_empty_salt :
    (nextOf (exec (.init224S []) State.reset)).map (fun t => (t.err.code, t.cfg, t.pc)) = some (1, 0, 0) := by decide

/-- V-U4, V-U5: the 64th byte compresses, the next one is buffered. -/
theorem test_update_completes_block :
    (nextOf (exec (.update [0x61, 0x61]) (constructed (List.replicate 63 0x61) []))).map
        (fun t => (t.digest.map fun d => (d.h, d.t, d.buf), t.pc))
      = some (some (#v[0x20890C40, 0xF09FA6F5, 0xA589BEFA, 0x6A1AD641, 0x21B31BB4, 0x680F46B2, 0x565B146A, 0xF81A4467],
          512, [0x61]), 6) := by decide +kernel

/-- V-X22. -/
theorem test_update_not_constructed :
    (nextOf (exec (.update [0x61]) State.reset)).map (fun t => (t.err.code, t.pc, t.digest)) = some (3, 0, none) := by decide

/-- V-K1: the empty message. -/
theorem test_final_empty :
    (nextOf (exec .final (constructed [] []))).map (fun t => (t.out.map asNumber, t.digest, t.pc))
      = some ([0x716f6e863f744b9ac22c97ec7b76ea5f5908bc5b2f67c61510bfc4751384ea7a], some (plain256 []), 4) := by
  decide +kernel

/-- V-F7: 56 bytes, the two-block branch. -/
theorem test_final_two_blocks :
    (nextOf (exec .final (constructed (List.replicate 56 0x61) []))).map (fun t => t.out.map asNumber)
      = some [0xea7a29472a26148914abb8033869be9bdea294fdd2b73ed7a02a7692940f5b9e] := by decide +kernel

/-- R146's example: width 224 kept, chain value, counter and buffer restarted. -/
theorem test_reset_keeps_width :
    let d : Digest := { Digest.fresh .w224 zeroSalt with h := iv256, t := 512, buf := List.replicate 8 0x61 }
    (nextOf (exec .reset { State.reset with digest := some d })).map (fun t => (t.digest, t.pc))
      = some (some (Digest.fresh .w224 zeroSalt), 4) := by decide

/-- V-X24. -/
theorem test_reset_not_constructed :
    (nextOf (exec .reset State.reset)).map (fun t => (t.err.code, t.pc)) = some (3, 0) := by decide

/-! ## One step -/

/-- V-X10: reserved although a whole packet of that length is there. -/
theorem test_step_reserved :
    (nextOf (step (streamState ([0x01, 0x00, 0x00, 0x10] ++ digitsSalt)))).map (fun t => (t.err.code, t.pc, t.cfg))
      = some (2, 0, 0) := by decide

/-- V-X21: a salt packet of a wrong length is waited for before its length is checked. -/
theorem test_step_waits_for_bad_salt :
    faultOf (step (streamState [0x01, 0x02, 0x00, 0x0f, 0x31, 0x32])) = some .waiting := by decide

/-- V-X1, V-X28: the empty stream has ended, three bytes of a header have not. -/
theorem test_step_end_of_stream :
    faultOf (step State.reset) = some .endOfStream ∧
      faultOf (step (streamState [0x01, 0x00, 0x00])) = some .waiting := by decide

/-- R170. -/
theorem test_step_halted :
    faultOf (step { streamState [0x01, 0x00, 0x00, 0x00] with err := .notConstructed }) = some .halted := by decide

/-! ## The assembler (R79, R80) -/

/-- R79: `N*seq`, `++`, hex with a space, text, a comment. -/
theorem test_parse_update :
    parseLine ['U', 'P', 'D', 'A', 'T', 'E', ' ', '2', '*', 'x', Char.ofNat 34, '6', '1', ' ', '6', '2', Char.ofNat 34, ' ',
        '+', '+', ' ', Char.ofNat 34, 'c', Char.ofNat 34, ' ', ';', 'n']
      = some (some (.plain (.update [0x61, 0x62, 0x61, 0x62, 0x63]))) := by decide

/-- P1 of 95_test_vectors.md. -/
theorem test_assemble_one_shot :
    assemble [.hash256 [0x61, 0x62, 0x63]]
      = [0x01, 0, 0, 0, 0x02, 0, 0, 0x03, 0x61, 0x62, 0x63, 0x03, 0, 0, 0] := by decide

/-! ## Witnesses: for each statement with hypotheses, a state and operands that meet them -/

theorem witness_ReferenceEncodingsDecode : (List.replicate 15 (0 : Byte)).length = 15 := by decide

theorem witness_CommandRowsDisjoint :
    ∃ r ∈ commandRows, r.selects 0x0200FFFF = true := ⟨⟨.update, 0x02000000, 0xFFFF0000⟩, by decide⟩

theorem witness_DecodeOfEncode : (Instr.update [0x61]).wellFormed = true := by decide

theorem witness_EncodeOfDecode : decode [0x04, 0, 0, 0, 9] = .command .reset [9] := by decide

theorem witness_StepRunsDecodedCommand :
    (streamState [0x01, 0, 0, 0]).err = .none ∧ fetch (streamState [0x01, 0, 0, 0]) = .command .init256 [] := by decide

theorem witness_StepRunsSuppliedPacket :
    let s := streamState [0x02, 0, 0, 1, 0x61]
    s.err = .none ∧ s.cmd.wf ∧ (Instr.update [0x61]).wellFormed = true ∧
      ∀ k, k < (encode (.update [0x61])).length → s.cmd.read? (s.pc + k) = (encode (.update [0x61]))[k]? := by decide

theorem witness_StepFollowsDecodeProcedure : (streamState [0x03, 0]).cmd = cellsFrom 0 [0x03, 0] := by decide

theorem witness_FetchWordRunsTableInstruction :
    State.reset.err = .none ∧ decodeTableWord 32 0x03000000 = some .final := by decide

theorem witness_IllegalCommandRaised :
    let s := streamState [0x03, 0, 0, 1]
    s.err = .none ∧ s.cmd.wf ∧ s.cmd.read? s.pc = some 0x03 ∧ s.cmd.read? (s.pc + 1) = some 0 ∧
      s.cmd.read? (s.pc + 2) = some 0 ∧ s.cmd.read? (s.pc + 3) = some 1 ∧ reservedHeader (be32 0x03 0 0 1) := by
  unfold reservedHeader; decide

theorem witness_IncompletePacketWaits_header :
    let s := streamState [0x03, 0, 0]
    s.err = .none ∧ s.cmd.wf ∧ ∃ k < 4, s.cmd.read? (s.pc + k) = none := by decide

theorem witness_IncompletePacketWaits_payload :
    let s := streamState [0x02, 0, 0, 1]
    s.err = .none ∧ s.cmd.wf ∧ s.cmd.read? s.pc = some 0x02 ∧ s.cmd.read? (s.pc + 1) = some 0 ∧
      s.cmd.read? (s.pc + 2) = some 0 ∧ s.cmd.read? (s.pc + 3) = some 1 ∧
      commandOf (be32 0x02 0 0 1) = some .update ∧
      ∃ k < (lenField (be32 0x02 0 0 1)).toNat, s.cmd.read? (s.pc + 4 + k) = none := by decide

theorem witness_HaltedEngineHasNoStep : (raiseFault .illegalCommand State.reset).err ≠ .none := by decide

theorem witness_FaultEntryWritesOnlyErr :
    step (streamState [0, 0, 0, 0]) = .next (raiseFault .illegalCommand (streamState [0, 0, 0, 0])) ∧
      (raiseFault .illegalCommand (streamState [0, 0, 0, 0])).err ≠ .none := ⟨rfl, by decide⟩

theorem witness_StepIsMonotone : step (constructed [] [0x04, 0, 0, 0]) = .next ((constructed [] [0x04, 0, 0, 0]).advance 0) := rfl

theorem witness_LaterBytesChangeNothing :
    (constructed [] [0x04, 0, 0, 0]).cmd.wf ∧
      step (constructed [] [0x04, 0, 0, 0]) = .next ((constructed [] [0x04, 0, 0, 0]).advance 0) := ⟨by decide, rfl⟩

/-- A constructed engine with a full command to run is sound: the witness for the statements about `State.Inv`. -/
theorem constructed_inv : (constructed [0x61] [0x04, 0, 0, 0]).Inv := by
  refine ⟨?_, ?_, by decide, by decide⟩
  · intro d hd
    have h : d = plain256 [0x61] := by simpa [constructed, eq_comm] using hd
    subst h
    exact ⟨by decide, by decide, by decide⟩
  · intro r hr
    exact absurd hr List.not_mem_nil

theorem witness_RunEndsInExactlyOneWay : ∃ s : State, s.Inv := ⟨_, constructed_inv⟩

theorem witness_EveryRunEnds : ∃ s : State, s.Inv ∧ s.pc < s.cmd.avail := ⟨_, constructed_inv, by decide⟩

theorem witness_StepKeepsSoundState :
    (constructed [0x61] [0x04, 0, 0, 0]).Inv ∧
      step (constructed [0x61] [0x04, 0, 0, 0]) = .next ((constructed [] [0x04, 0, 0, 0]).advance 0) :=
  ⟨constructed_inv, rfl⟩

theorem witness_HostEventsKeepSoundState : ∃ s : State, s.Inv ∧ s.digest ≠ none := ⟨_, constructed_inv, by decide⟩

theorem witness_WidthAndSaltConstant :
    let s := constructed [0x61] [0x04, 0, 0, 0]
    s.digest = some (plain256 [0x61]) ∧ step s = .next ((constructed [] [0x04, 0, 0, 0]).advance 0) ∧
      ∀ i rest, fetch s = .command i rest → i = .final ∨ i = .reset ∨ ∃ p, i = .update p := by
  refine ⟨rfl, rfl, fun i rest h => .inr (.inl ?_)⟩
  have h' : Decoded.command .reset [] = .command i rest := h
  cases h'
  rfl

theorem witness_SaltedInit_accepted : digitsSalt.length = 16 := by decide

/-- The lengths next to 16, and 0 and the longest. -/
theorem witness_SaltedInit_refused :
    ∀ n ∈ [0, 15, 17, 65535], (List.replicate n (0 : Byte)).length ≠ 16 := by
  intro n hn; simp at hn ⊢; omega

theorem witness_ZeroSaltEqualsNoSalt :
    digitsSalt.length = 16 ∧ (List.replicate 16 (0 : Byte)).length = 16 ∧ digitsSalt ≠ List.replicate 16 0 := by decide

theorem witness_ResetRestartsMessage_constructed : (constructed [0x61] []).digest = some (plain256 [0x61]) := rfl
theorem witness_ResetRestartsMessage_not_constructed : State.reset.cfg = 0 := by decide
theorem witness_ResetRestartsMessage_fresh : (constructed [] []).digest = some (Digest.fresh .w256 zeroSalt) := rfl

theorem witness_NotConstructedRaised : State.reset.cfg = 0 := by decide

theorem witness_ConstructedCommandsNeverFault : (constructed [] []).cfg = 1 := by decide

/-- Fill counts at both ends of the range, 0 and 63; also the witness for FinalClosedForm and FinalLeavesMessage. -/
theorem witness_UpdateAbsorbs :
    ∀ n ∈ [0, 63], ∃ d, (constructed (List.replicate n 0x61) []).digest = some d ∧ d.nx ≤ 63 ∧ d.nullt = false := by
  intro n hn
  refine ⟨_, rfl, ?_, rfl⟩
  simp [Digest.nx, plain256] at hn ⊢; omega

theorem witness_AbsorbClosedForm : (plain256 (List.replicate 63 0)).nx ≤ 63 := by decide

theorem witness_UpdateChunkingInvariant :
    (constructed [] []).cfg = 1 ∧ ([[0x61], [], [0x62, 0x63]] : List (List Byte)).flatten = [[0x61, 0x62, 0x63]].flatten := by
  decide

theorem witness_ZeroLengthUpdate : (constructed [] []).cfg = 1 ∧ State.reset.cfg = 0 := by decide

theorem witness_DigestStateTracksMessage :
    (constructed [] []).digest = some (Digest.fresh .w256 zeroSalt) ∧
      ∀ i ∈ [Instr.update [0x61], .final], i = .final ∨ ∃ p, i = .update p := by
  refine ⟨rfl, fun i hi => ?_⟩
  rcases List.mem_cons.1 hi with rfl | hi
  · exact .inr ⟨_, rfl⟩
  · exact .inl (List.mem_singleton.1 hi)

theorem witness_GOperationAssignments : ([0, 4, 8, 12] : List (Fin 16)).Nodup := by decide

theorem witness_DisjointOperationsCommute : ([0, 4, 8, 12, 3, 7, 11, 15] : List (Fin 16)).Nodup := by decide

theorem witness_RoundsReusePermutations : 11 ≤ 11 ∧ 14 ≤ 14 := by decide

/-- The four branches' boundaries: 0, 54, 55, 56 and 63 buffered bytes. -/
theorem witness_FinalCounterBookkeeping :
    ∀ n ∈ [0, 54, 55, 56, 63], (plain256 (List.replicate n 0)).nx = n ∧ n ≤ 63 := by decide

theorem witness_RecordIsBigEndianPrefix : 4 * (6 : Fin 8).val + 3 < Width.w224.digestBytes := by decide

theorem witness_OneShotAppendsDigest : digitsSalt.length = 16 := by decide

end Sys2Proof.Tests
end

