-- ==== Sys2Proof/Proofs/State.lean ====
section
/-! PROOFS of the family 10_state: the Digest State keeps its width and salt (O23) and tracks the message absorbed
(O34). Both go through one lemma for each constructed command; O34 also through the closed form of `absorb` (R92), on
the Digest State that whole blocks and a rest of a byte stream make. -/

namespace Sys2Proof.Proofs

open Sys2Proof.Machine Sys2Proof.Laws

/-! ## Commands on a constructed engine -/

section Constructed
variable {s : State} {d : Digest}

/-- UPDATE absorbs its payload (R90). -/
theorem exec_update_of_some (h : s.digest = some d) (p : List Byte) :
    exec (.update p) s = .next ((s.setDigest (absorb d p)).advance p.length) :=
  whenConstructed_of_some h _

/-- FINAL appends the record (R120). -/
theorem exec_final_of_some (h : s.digest = some d) :
    exec .final s = .next ((s.emit (digestRecord d)).advance 0) :=
  whenConstructed_of_some h _

/-- RESET starts a new message (R146). -/
theorem exec_reset_of_some (h : s.digest = some d) :
    exec .reset s = .next ((s.setDigest d.restarted).advance 0) :=
  whenConstructed_of_some h _

/-- UPDATE and FINAL absorb their payload, FINAL's being empty, and take no fault (R90, R121). -/
theorem exec_absorbs_payload {i : Instr} (h : s.digest = some d) (hi : i = .final ∨ ∃ p, i = .update p) :
    ∃ t, exec i s = .next t ∧ t.err = s.err ∧ t.digest = some (absorb d i.payload) := by
  obtain rfl | ⟨p, rfl⟩ := hi
  · exact ⟨_, exec_final_of_some h, rfl, h⟩
  · exact ⟨_, exec_update_of_some h p, rfl, rfl⟩

/-- UPDATE, FINAL and RESET keep the width and the salt (R29). -/
theorem exec_keeps_width_and_salt {t : State} {i : Instr} (h : s.digest = some d)
    (hi : i = .final ∨ i = .reset ∨ ∃ p, i = .update p) (ht : exec i s = .next t) :
    ∃ d', t.digest = some d' ∧ d'.w = d.w ∧ d'.s = d.s := by
  obtain rfl | rfl | ⟨p, rfl⟩ := hi
  · rw [exec_final_of_some h] at ht
    cases ht
    exact ⟨d, h, rfl, rfl⟩
  · rw [exec_reset_of_some h] at ht
    cases ht
    exact ⟨d.restarted, rfl, rfl, rfl⟩
  · rw [exec_update_of_some h] at ht
    cases ht
    exact ⟨absorb d p, rfl, absorb_w p d, absorb_s p d⟩

end Constructed

/-- Settles O23: a step executes the command fetched, or takes `IllegalCommand`, which writes `ERR` alone. -/
theorem widthAndSaltConstant : Obligations.WidthAndSaltConstant := by
  intro s t d hd hstep hcommand
  obtain ⟨-, ⟨-, rfl⟩ | ⟨i, rest, hfetch, hexec⟩⟩ := (step_next_iff s t).1 hstep
  · exact ⟨d, hd, rfl, rfl⟩
  · exact exec_keeps_width_and_salt hd (hcommand i rest hfetch) hexec

/-! ## A sequence of UPDATEs and FINALs -/

theorem execAll_cons_of_next {i : Instr} {is : List Instr} {s t : State} (h : exec i s = .next t) :
    execAll (i :: is) s = execAll is t := by
  simp [execAll, h]

theorem absorb_append (d : Digest) (p q : List Byte) : absorb d (p ++ q) = absorb (absorb d p) q :=
  List.foldl_append

/-- UPDATEs and FINALs absorb the concatenation of their payloads and take no fault (R93, R130). -/
theorem execAll_absorbs_payloads {is : List Instr} {s : State} {d : Digest} (h : s.digest = some d)
    (his : ∀ i ∈ is, i = .final ∨ ∃ p, i = .update p) :
    ∃ t, execAll is s = .next t ∧ t.err = s.err ∧ t.digest = some (absorb d (is.flatMap Instr.payload)) := by
  induction is generalizing s d with
  | nil => exact ⟨s, rfl, rfl, h⟩
  | cons i is ih =>
    obtain ⟨hi, his⟩ := List.forall_mem_cons.1 his
    obtain ⟨t, hexec, herr, hdigest⟩ := exec_absorbs_payload h hi
    obtain ⟨u, hall, herr', hdigest'⟩ := ih hdigest his
    refine ⟨u, (execAll_cons_of_next hexec).trans hall, herr'.trans herr, ?_⟩
    rw [hdigest', List.flatMap_cons, absorb_append]

/-! ## The closed form of `absorb` (R92) -/

/-- The chain value of a Digest State after the first `k` blocks of a stream, each with its own counter. -/
def chainAfter (d : Digest) (stream : List Byte) (k : Nat) : Vector Word 8 :=
  (List.range k).foldl
    (fun h i => (compress h d.s (d.t + BitVec.ofNat 64 (512 * i)) d.nullt (blockOf stream i)).1) d.h

/-- The Digest State that has taken in a stream from the chain value and counter of `d`: whole blocks compressed, the
rest buffered (R92). What `d` buffers is not read: it is the start of the stream. -/
def afterStream (d : Digest) (stream : List Byte) : Digest :=
  { d with
    h := chainAfter d stream (stream.length / 64)
    t := d.t + BitVec.ofNat 64 (512 * (stream.length / 64))
    buf := stream.drop (64 * (stream.length / 64)) }

/-- A block that a stream already holds is not changed by what comes after. -/
theorem blockOf_append {stream : List Byte} {i : Nat} (h : 64 * (i + 1) ≤ stream.length) (p : List Byte) :
    blockOf (stream ++ p) i = blockOf stream i := by
  unfold blockOf
  rw [List.drop_append_of_le_length (by omega), List.take_append_of_le_length (by simp; omega)]

theorem chainAfter_succ (d : Digest) (stream : List Byte) (k : Nat) :
    chainAfter d stream (k + 1) =
      (compress (chainAfter d stream k) d.s (d.t + BitVec.ofNat 64 (512 * k)) d.nullt (blockOf stream k)).1 := by
  simp [chainAfter, List.range_succ]

/-- The chain value after blocks that a stream already holds is not changed by what comes after. -/
theorem chainAfter_append (d : Digest) {stream : List Byte} {k : Nat} (h : 64 * k ≤ stream.length) (p : List Byte) :
    chainAfter d (stream ++ p) k = chainAfter d stream k := by
  induction k with
  | zero => simp [chainAfter]
  | succ k ih => simp only [chainAfter_succ, blockOf_append h, ih (by omega)]

theorem afterStream_nx (d : Digest) (stream : List Byte) : (afterStream d stream).nx = stream.length % 64 := by
  simp only [afterStream, Digest.nx, List.length_drop]
  omega

/-- A buffer that is not full is a stream without a whole block. -/
theorem afterStream_buf {d : Digest} (h : d.nx < 64) : afterStream d d.buf = d := by
  have hk : d.buf.length / 64 = 0 := Nat.div_eq_of_lt h
  simp [afterStream, chainAfter, hk]

/-- Absorbing a byte lengthens the stream by that byte: either it completes the next block, or no block is completed
(R92). -/
theorem absorbByte_afterStream (d : Digest) (stream : List Byte) (b : Byte) :
    absorbByte (afterStream d stream) b = afterStream d (stream ++ [b]) := by
  have hle : 64 * (stream.length / 64) ≤ stream.length := by omega
  have hrest : (stream ++ [b]).drop (64 * (stream.length / 64)) = stream.drop (64 * (stream.length / 64)) ++ [b] :=
    List.drop_append_of_le_length hle
  have hcases := absorbByte_cases (afterStream d stream) b
  rw [afterStream_nx] at hcases
  obtain ⟨hnx, h⟩ | ⟨hnx, h⟩ := hcases
  · have hk : (stream ++ [b]).length / 64 = stream.length / 64 + 1 := by simp; omega
    have hblock : blockOf (stream ++ [b]) (stream.length / 64) = stream.drop (64 * (stream.length / 64)) ++ [b] := by
      unfold blockOf
      rw [hrest, List.take_of_length_le]
      simp; omega
    have hcounter : d.t + BitVec.ofNat 64 (512 * (stream.length / 64)) + 512 =
        d.t + BitVec.ofNat 64 (512 * (stream.length / 64 + 1)) := by
      simp [BitVec.add_assoc, Nat.mul_succ, BitVec.ofNat_add]
    have hempty : (stream ++ [b]).drop (64 * (stream.length / 64 + 1)) = [] := by
      apply List.drop_eq_nil_of_le
      simp; omega
    rw [h]
    unfold Digest.compressBlock afterStream
    simp only [hk, chainAfter_succ, chainAfter_append d hle, hblock, compress_counter, hcounter, hempty]
  · have hk : (stream ++ [b]).length / 64 = stream.length / 64 := by simp; omega
    rw [h]
    unfold afterStream
    simp only [hk, chainAfter_append d hle, hrest]

theorem absorb_afterStream (d : Digest) (stream p : List Byte) :
    absorb (afterStream d stream) p = afterStream d (stream ++ p) := by
  induction p generalizing stream with
  | nil => simp
  | cons b p ih => rw [absorb_cons, absorbByte_afterStream, ih, List.append_assoc, List.singleton_append]

/-- `absorb` in closed form: the buffered bytes and the new ones, as one stream (R92). -/
theorem absorb_eq_afterStream {d : Digest} (h : d.nx < 64) (p : List Byte) :
    absorb d p = afterStream d (d.buf ++ p) := by
  rw [← absorb_afterStream, afterStream_buf h]

/-! ## The message absorbed since construction or RESET -/

/-- From a Digest State that has absorbed nothing, the counter is 512 for each block compressed (R24, R28). -/
theorem absorb_fresh (w : Width) (salt : Vector Word 4) (msg : List Byte) :
    absorb (Digest.fresh w salt) msg =
      { w := w
        h := (List.range (msg.length / 64)).foldl
          (fun h i => (compress h salt (BitVec.ofNat 64 (512 * i)) false (blockOf msg i)).1) (initialVector w)
        s := salt
        t := BitVec.ofNat 64 (512 * (msg.length / 64))
        nullt := false
        buf := msg.drop (64 * (msg.length / 64)) } := by
  have hnx : (Digest.fresh w salt).nx < 64 := Nat.zero_lt_succ _
  rw [absorb_eq_afterStream hnx]
  simp [afterStream, chainAfter]

/-- Settles O34: UPDATEs and FINALs absorb the message, and `absorb` from a fresh Digest State has a closed form. -/
theorem digestStateTracksMessage : Obligations.DigestStateTracksMessage := by
  intro s w salt is hdigest his msg k
  obtain ⟨t, hall, herr, ht⟩ := execAll_absorbs_payloads hdigest his
  exact ⟨t, hall, herr, ht.trans (congrArg some (absorb_fresh w salt msg))⟩

end Sys2Proof.Proofs
end

