-- ==== Sys2Proof/Proofs/Memory.lean ====
section
/-! PROOFS of the family 20_memory: the byte layout of a record of `OUT` (O46). The bytes of one word (R10), the bytes
of a sequence of words, and then `serialise`, which is such a sequence. -/

namespace Sys2Proof.Proofs

open Sys2Proof.Machine Sys2Proof.Laws

/-! ## Big-endian words -/

/-- Byte `j` of a word, most significant first (R10). -/
theorem be32bytes_getD_toNat (w : Word) {j : Nat} (hj : j < 4) :
    ((be32bytes w).getD j 0).toNat = w.toNat / 2 ^ (24 - 8 * j) % 256 := by
  have byte_toNat (i : Nat) : (w.extractLsb' i 8).toNat = w.toNat / 2 ^ i % 256 := by
    rw [BitVec.extractLsb'_toNat, Nat.shiftRight_eq_div_pow]
  match j with
  | 0 => exact byte_toNat 24
  | 1 => exact byte_toNat 16
  | 2 => exact byte_toNat 8
  | 3 => exact byte_toNat 0

theorem flatMap_be32bytes_length (ws : List Word) : (ws.flatMap be32bytes).length = 4 * ws.length := by
  simp [List.length_flatMap, Nat.mul_comm]

/-- Byte `4k + j` of a sequence of words is byte `j` of word `k` (R56). -/
theorem flatMap_be32bytes_getD {ws : List Word} {k j : Nat} (hk : k < ws.length) (hj : j < 4) :
    (ws.flatMap be32bytes).getD (4 * k + j) 0 = (be32bytes ws[k]).getD j 0 := by
  induction ws generalizing k with
  | nil => exact absurd hk (Nat.not_lt_zero k)
  | cons w ws ih =>
    rw [List.flatMap_cons]
    cases k with
    | zero => rw [Nat.mul_zero, Nat.zero_add, List.getD_append _ _ _ _ hj, List.getElem_cons_zero]
    | succ k =>
      have hskip : 4 * (k + 1) + j - (be32bytes w).length = 4 * k + j := by rw [be32bytes_length]; omega
      rw [List.getD_append_right _ _ _ _ (by rw [be32bytes_length]; omega), hskip, ih (Nat.lt_of_succ_lt_succ hk),
        List.getElem_cons_succ]

/-! ## The record -/

/-- The chain words that are serialised: `W/32` of the eight (R56). -/
theorem serialised_words_length (h : Vector Word 8) (w : Width) :
    (h.toList.take (w.bits / 32)).length = w.bits / 32 := by
  cases w <;> simp [Width.bits]

/-- A digest is `W/32` whole words (R21, R56). -/
theorem digestBytes_eq (w : Width) : w.digestBytes = 4 * (w.bits / 32) := by
  cases w <;> rfl

theorem serialise_length (h : Vector Word 8) (w : Width) : (serialise h w).length = w.digestBytes := by
  rw [serialise, flatMap_be32bytes_length, serialised_words_length, digestBytes_eq]

/-- Byte `4k + j` of the record is byte `j` of chain word `k`, for each word that the width keeps (R56, R127). -/
theorem serialise_getD {h : Vector Word 8} {w : Width} {k : Fin 8} {j : Nat} (hk : k.val < w.bits / 32) (hj : j < 4) :
    (serialise h w).getD (4 * k.val + j) 0 = (be32bytes h[k]).getD j 0 := by
  rw [serialise, flatMap_be32bytes_getD (hk.trans_eq (serialised_words_length h w).symm) hj, List.getElem_take,
    Vector.getElem_toList, Fin.getElem_fin]

/-- Settles O46: a position within the record lies in one of the words kept, at one of its four bytes. -/
theorem recordIsBigEndianPrefix : Obligations.RecordIsBigEndianPrefix := by
  intro h w
  refine ⟨serialise_length h w, fun k j hj hlt => ?_⟩
  have hk : k.val < w.bits / 32 := by
    rw [digestBytes_eq] at hlt
    omega
  rw [serialise_getD hk hj, be32bytes_getD_toNat _ hj]

end Sys2Proof.Proofs
end

