-- ==== Sys2Proof/Proofs/Encoding.lean ====
section
/-! PROOFS of the family 30_encoding: the worked encodings (O1). The packet of a well-formed command decodes to that
command, because its header selects the command's row (R73) and announces the payload's length (R70). -/

namespace Sys2Proof.Proofs

open Sys2Proof.Machine Sys2Proof.Laws

/-! ## The row that a command's header selects -/

theorem word_eq_iff_halves_eq (v w : Word) :
    v = w ↔ v.extractLsb' 16 16 = w.extractLsb' 16 16 ∧ v.extractLsb' 0 16 = w.extractLsb' 0 16 := by
  have halves (u : Word) : u.extractLsb' 16 16 ++ u.extractLsb' 0 16 = u :=
    (BitVec.extractLsb'_append_extractLsb'_eq_extractLsb' rfl).trans BitVec.extractLsb'_eq_self
  refine ⟨fun h => h ▸ ⟨rfl, rfl⟩, fun ⟨hupper, hlower⟩ => ?_⟩
  rw [← halves v, ← halves w, hupper, hlower]

/-- A header selects a row half by half: opcode and flags in the upper half, `LEN` in the lower (R71, R73). -/
theorem selects_append (row : CommandRow) (upper len : BitVec 16) :
    row.selects (upper ++ len) =
      ((upper &&& row.mask.extractLsb' 16 16 == row.pattern.extractLsb' 16 16) &&
        (len &&& row.mask.extractLsb' 0 16 == row.pattern.extractLsb' 0 16)) := by
  have hupper : (upper ++ len).extractLsb' 16 16 = upper := BitVec.extractLsb'_append_eq_left
  have hlen : (upper ++ len).extractLsb' 0 16 = len := BitVec.extractLsb'_append_eq_right
  rw [Bool.eq_iff_iff, CommandRow.selects, beq_iff_eq, word_eq_iff_halves_eq]
  simp only [BitVec.extractLsb'_and, hupper, hlen, Bool.and_eq_true, beq_iff_eq]

/-- The three rows that leave `LEN` free are selected by opcode and flags, whatever the length (R73). -/
theorem commandOf_append_of_freeLen (len : BitVec 16) :
    commandOf ((0x0102 : BitVec 16) ++ len) = some .init256S ∧
      commandOf ((0x0103 : BitVec 16) ++ len) = some .init224S ∧
      commandOf ((0x0200 : BitVec 16) ++ len) = some .update := by
  simp [commandOf, commandRows, selects_append]

/-- A command's header selects the command's row, and the payload gives the operand back (R73, R77). -/
theorem commandOf_encodeHeader (i : Instr) :
    ∃ c, commandOf (encodeHeader i) = some c ∧ c.withPayload i.payload = i := by
  cases i with
  | init256 => exact ⟨.init256, rfl, rfl⟩
  | init224 => exact ⟨.init224, rfl, rfl⟩
  | init256S p => exact ⟨.init256S, (commandOf_append_of_freeLen _).1, rfl⟩
  | init224S p => exact ⟨.init224S, (commandOf_append_of_freeLen _).2.1, rfl⟩
  | update p => exact ⟨.update, (commandOf_append_of_freeLen _).2.2, rfl⟩
  | final => exact ⟨.final, rfl, rfl⟩
  | reset => exact ⟨.reset, rfl, rfl⟩

/-- A well-formed command's header announces the length of its payload (R70, R75). -/
theorem lenField_encodeHeader {i : Instr} (h : i.wellFormed = true) :
    (lenField (encodeHeader i)).toNat = i.payload.length := by
  cases i with
  | init256 => exact PacketLength.init256.2 h
  | init224 => exact PacketLength.init224.2 h
  | init256S p => exact (PacketLength.init256S p).2 h
  | init224S p => exact (PacketLength.init224S p).2 h
  | update p => exact (PacketLength.update p).2 h
  | final => exact PacketLength.final.2 h
  | reset => exact PacketLength.reset.2 h

/-! ## Packets and reserved headers -/

/-- The decoder reads a well-formed command back from its packet and leaves the bytes after it (R75, R78). -/
theorem decode_encode_append {i : Instr} (h : i.wellFormed = true) (rest : List Byte) :
    decode (encode i ++ rest) = .command i rest := by
  obtain ⟨c, hc, hi⟩ := commandOf_encodeHeader i
  rw [encode, List.append_assoc, decode_be32bytes_append, decodeAfterHeader, hc]
  simp [lenField_encodeHeader h, hi]

theorem decode_of_encode_eq {i : Instr} {bytes : List Byte} (h : i.wellFormed = true) (hi : encode i = bytes) :
    decode bytes = .command i [] := by
  rw [← hi, ← List.append_nil (encode i), decode_encode_append h]

/-- Packets that encode well-formed commands decode to them. -/
theorem decode_of_forall_encode_eq {packets : List (Instr × List Byte)}
    (h : ∀ c ∈ packets, c.1.wellFormed = true ∧ encode c.1 = c.2) :
    ∀ c ∈ packets, encode c.1 = c.2 ∧ decode c.2 = .command c.1 [] := fun c hc =>
  have ⟨hwf, hencode⟩ := h c hc
  ⟨hencode, decode_of_encode_eq hwf hencode⟩

/-- A header that selects no row is rejected whatever follows it (R76, R162). -/
theorem decode_append_of_reserved {b0 b1 b2 b3 : Byte} (h : commandOf (be32 b0 b1 b2 b3) = none)
    (rest : List Byte) : decode ([b0, b1, b2, b3] ++ rest) = .reserved := by
  simp [decode, decodeAfterHeader, h]

/-- INIT256.S with a salt of a wrong length raises `InvalidSaltLength` and writes nothing else (R141, R161, R166). -/
theorem exec_init256S_of_length_ne {p : List Byte} (h : p.length ≠ 16) (s : State) :
    exec (.init256S p) s = .next (raiseFault .invalidSaltLength s) := by
  obtain ⟨-, hfault⟩ | ⟨hlen, -⟩ := constructSalted_cases .w256 p s
  · exact congrArg _ hfault
  · exact absurd hlen h

/-! ## The worked encodings -/

theorem encode_init256S_of_length_eq {p : List Byte} {n : Nat} (h : p.length = n) :
    encode (.init256S p) = be32bytes (headerWord 0x01 1 0 n) ++ p := by
  rw [← h]
  rfl

/-- Settles O1: each packet is its command's encoding by evaluation, and so decodes to it; each reserved header selects
no row; a salt of 15 bytes or of none is well-formed, and INIT256.S refuses it. -/
theorem referenceEncodingsDecode : Obligations.ReferenceEncodingsDecode := by
  refine ⟨?commands, ?reserved, ?salt15, ?salt0⟩
  case commands =>
    exact decode_of_forall_encode_eq (by decide +kernel)
  case reserved =>
    simp only [List.forall_mem_cons]
    exact ⟨decode_append_of_reserved rfl, decode_append_of_reserved rfl, decode_append_of_reserved rfl,
      decode_append_of_reserved rfl, decode_append_of_reserved rfl, List.forall_mem_nil _⟩
  case salt15 =>
    intro p hp
    have hwf : (Instr.init256S p).wellFormed = true := by simp [Instr.wellFormed, payloadFits, hp, Config.maxPayload]
    exact ⟨decode_of_encode_eq hwf (encode_init256S_of_length_eq hp), exec_init256S_of_length_ne (by omega)⟩
  case salt0 =>
    exact ⟨decode_of_encode_eq rfl rfl, exec_init256S_of_length_ne (by decide)⟩

end Sys2Proof.Proofs
end

