-- ==== Sys2Proof/Proofs/Update.lean ====
section
/-! PROOFS of the family 40_update: UPDATE in the three phases of R91 (O30), chunking (O32) and the empty UPDATE (O33).
For O30 each phase is shown to leave a Digest State and a rest of the input from which `absorb` goes on to the same
result. -/

namespace Sys2Proof.Proofs

open Sys2Proof.Machine Sys2Proof.Laws

/-! ## UPDATE -/

/-- Without a Digest State UPDATE raises `NotConstructed` and writes nothing else (R90, R163, R166). -/
theorem exec_update_of_cfg_eq_zero {s : State} (h : s.cfg = 0) (p : List Byte) :
    exec (.update p) s = .next { s with err := .notConstructed } :=
  whenConstructed_of_none ((cfg_eq_zero_iff s).1 h) _

theorem setDigest_of_digest_eq {s : State} {d : Digest} (h : s.digest = some d) : s.setDigest d = s := by
  rw [State.setDigest, ← h]

/-- Settles O33: the packet is the command's encoding, and absorbing no bytes leaves the Digest State (R94). -/
theorem zeroLengthUpdate : Obligations.ZeroLengthUpdate := by
  refine ⟨decode_of_encode_eq rfl rfl, fun s => ⟨fun hcfg => ?_, fun hcfg => exec_update_of_cfg_eq_zero hcfg []⟩⟩
  obtain ⟨d, hd⟩ := (cfg_eq_one_iff s).1 hcfg
  rw [exec_update_of_some hd, absorb_nil, setDigest_of_digest_eq hd]
  rfl

/-! ## A sequence of UPDATEs -/

/-- UPDATEs one after the other: the whole next state (R90, R93). -/
theorem execAll_updates {s : State} {d : Digest} (h : s.digest = some d) (ps : List (List Byte)) :
    execAll (ps.map .update) s =
      .next { s with digest := some (absorb d ps.flatten), pc := s.pc + 4 * ps.length + ps.flatten.length } := by
  induction ps generalizing s d with
  | nil => exact congrArg Host.Outcome.next (setDigest_of_digest_eq h).symm
  | cons p ps ih =>
    have hpc : s.pc + 4 + p.length + 4 * ps.length + ps.flatten.length =
        s.pc + 4 * (p :: ps).length + (p :: ps).flatten.length := by
      simp only [List.length_cons, List.flatten_cons, List.length_append]
      omega
    rw [List.map_cons, execAll_cons_of_next (exec_update_of_some h p), ih rfl, ← absorb_append, ← List.flatten_cons]
    simp only [advance_pc, setDigest_pc, hpc]
    rfl

/-- Settles O32: the Digest State after UPDATEs is a function of the concatenated message, and the record of a FINAL is
a function of the Digest State (R93). -/
theorem updateChunkingInvariant : Obligations.UpdateChunkingInvariant := by
  refine ⟨fun d p q => ⟨(absorb_append d p q).symm, absorb_nil d⟩, fun s ps qs hcfg hmsg => ?_⟩
  obtain ⟨d, hd⟩ := (cfg_eq_one_iff s).1 hcfg
  refine ⟨_, _, execAll_updates hd ps, execAll_updates hd qs, ?_, _, _, exec_final_of_some rfl,
    exec_final_of_some rfl, ?_⟩
  · rw [hmsg]
  · simp only [advance_out, emit_out, hmsg]

/-! ## `absorb` up to the end of a block -/

/-- Bytes that complete exactly one block: it is compressed once (R92). -/
theorem absorb_of_completes {d : Digest} {p : List Byte} (hd : d.nx < 64) (h : d.nx + p.length = 64) :
    absorb d p = d.compressBlock (d.buf ++ p) := by
  obtain rfl | ⟨q, b, rfl⟩ := List.eq_nil_or_concat p
  · exact absurd h (Nat.ne_of_lt hd)
  · rw [List.concat_eq_append, List.length_append, List.length_singleton] at h
    have hfull : ({ d with buf := d.buf ++ q } : Digest).nx = 63 := by
      simp only [Digest.nx, List.length_append] at h ⊢
      omega
    have hshort : d.nx + q.length < 64 := by omega
    rw [List.concat_eq_append, absorb_append, absorb_of_short hshort, ← List.append_assoc]
    obtain ⟨-, hbyte⟩ | ⟨hne, -⟩ := absorbByte_cases { d with buf := d.buf ++ q } b
    · exact hbyte
    · exact absurd hfull hne

/-- The bytes up to the end of the block complete it, and `absorb` goes on with the others (R92). -/
theorem absorb_of_reaches {d : Digest} {p : List Byte} (hd : d.nx < 64) (h : 64 ≤ d.nx + p.length) :
    absorb d p = absorb (d.compressBlock (d.buf ++ p.take (64 - d.nx))) (p.drop (64 - d.nx)) := by
  have htake : d.nx + (p.take (64 - d.nx)).length = 64 := by
    rw [List.length_take]
    omega
  rw [← absorb_of_completes hd htake, ← absorb_append, List.take_append_drop]

/-- The fill count after absorbing (R92). -/
theorem absorb_nx {d : Digest} (h : d.nx < 64) (p : List Byte) : (absorb d p).nx = (d.nx + p.length) % 64 := by
  rw [absorb_eq_afterStream h, afterStream_nx, List.length_append, Digest.nx]

/-! ## The phases of R91

Between the phases either the buffer is empty or no input is left, as R91 says of phase 3. -/

/-- All that phase 1 can do: nothing, to an empty buffer; take in an input that completes no block; or complete the
block that was begun, and compress it. -/
theorem absorbTopUp_cases {d : Digest} (h : d.nx < 64) (p : List Byte) :
    (d.buf = [] ∧ absorbTopUp d p = (d, p)) ∨
    (d.nx + p.length < 64 ∧ absorbTopUp d p = ({ d with buf := d.buf ++ p }, [])) ∨
    (64 ≤ d.nx + p.length ∧
      absorbTopUp d p = (d.compressBlock (d.buf ++ p.take (64 - d.nx)), p.drop (64 - d.nx))) := by
  unfold Digest.nx at h ⊢
  obtain hempty | hbegun := Nat.eq_zero_or_pos d.buf.length
  · exact .inl ⟨List.length_eq_zero_iff.1 hempty, by simp [absorbTopUp, hempty]⟩
  obtain hshort | hreaches := Nat.lt_or_ge (d.buf.length + p.length) 64
  · have hn : min p.length (64 - d.buf.length) = p.length := by omega
    exact .inr (.inl ⟨hshort, by simp [absorbTopUp, hbegun, hn, hshort.ne]⟩)
  · have hn : min p.length (64 - d.buf.length) = 64 - d.buf.length := by omega
    have hfull : (d.buf ++ p.take (64 - d.buf.length)).length = 64 := by
      rw [List.length_append, List.length_take]
      omega
    refine .inr (.inr ⟨hreaches, ?_⟩)
    simp only [absorbTopUp, hbegun, hn, hfull, if_true]

/-- `absorb` goes on from what phase 1 leaves. -/
theorem absorb_absorbTopUp {d : Digest} (h : d.nx < 64) (p : List Byte) :
    absorb (absorbTopUp d p).1 (absorbTopUp d p).2 = absorb d p := by
  obtain ⟨-, htop⟩ | ⟨hshort, htop⟩ | ⟨hreaches, htop⟩ := absorbTopUp_cases h p <;> rw [htop]
  · exact (absorb_of_short hshort).symm
  · exact (absorb_of_reaches h hreaches).symm

theorem absorbTopUp_buf_or_rest {d : Digest} (h : d.nx < 64) (p : List Byte) :
    (absorbTopUp d p).1.buf = [] ∨ (absorbTopUp d p).2 = [] := by
  obtain ⟨hempty, htop⟩ | ⟨-, htop⟩ | ⟨-, htop⟩ := absorbTopUp_cases h p <;> rw [htop]
  · exact .inl hempty
  · exact .inr rfl
  · exact .inl rfl

/-- Phase 2 finds the buffer empty whenever there is a whole block to take, so each block it compresses is one that
`absorb` compresses; it stops with less than a block, the buffer still empty or no input left. -/
theorem absorbBlocks_spec {d : Digest} {p : List Byte} (h : d.buf = [] ∨ p = []) :
    ∃ d' rest, absorbBlocks (p.length / 64) d p = (d', rest) ∧ absorb d' rest = absorb d p ∧
      rest.length < 64 ∧ (d'.buf = [] ∨ rest = []) := by
  induction hk : p.length / 64 generalizing d p with
  | zero => exact ⟨d, p, rfl, rfl, by omega, h⟩
  | succ k ih =>
    have hblock : 64 ≤ p.length := by omega
    have hbuf : d.buf = [] := h.resolve_right (List.ne_nil_of_length_pos (by omega))
    have hnx : d.nx = 0 := congrArg List.length hbuf
    have hfirst : absorb (d.compressBlock (p.take 64)) (p.drop 64) = absorb d p := by
      rw [absorb_of_reaches (by omega) (by omega : 64 ≤ d.nx + p.length), hbuf, hnx, List.nil_append]
    have hrest : (p.drop 64).length / 64 = k := by
      rw [List.length_drop]
      omega
    rw [absorbBlocks, if_pos hblock, ← hfirst]
    exact ih (.inl rfl) hrest

/-- Phase 3: a tail shorter than a block becomes the buffer. -/
theorem absorb_tail {d : Digest} {p : List Byte} (h : d.buf = [] ∨ p = []) (hp : p.length < 64) :
    (if 0 < p.length then { d with buf := p } else d) = absorb d p := by
  obtain rfl | hne := eq_or_ne p []
  · rfl
  · have hbuf : d.buf = [] := h.resolve_right hne
    have hnx : d.nx = 0 := congrArg List.length hbuf
    rw [if_pos (List.length_pos_iff.2 hne), absorb_of_short (by omega), hbuf, List.nil_append]

/-- The phases of R91 give what the byte-at-a-time form of R92 gives. -/
theorem absorbPhases_eq_absorb {d : Digest} (h : d.nx < 64) (p : List Byte) : absorbPhases d p = absorb d p := by
  obtain ⟨d', rest, hblocks, habsorb, hlen, hinv⟩ := absorbBlocks_spec (absorbTopUp_buf_or_rest h p)
  calc absorbPhases d p
    _ = if 0 < rest.length then { d' with buf := rest } else d' := by rw [absorbPhases, hblocks]
    _ = absorb d' rest := absorb_tail hinv hlen
    _ = absorb (absorbTopUp d p).1 (absorbTopUp d p).2 := habsorb
    _ = absorb d p := absorb_absorbTopUp h p

/-- Settles O30: the phases are `absorb`, of which the model's laws say what it keeps and how many bytes it buffers. -/
theorem updateAbsorbs : Obligations.UpdateAbsorbs := by
  refine ⟨fun s d p hd hnx => ?_, fun s p hcfg => exec_update_of_cfg_eq_zero hcfg p, fun salt => ?_⟩
  · have hlt : d.nx < 64 := Nat.lt_succ_of_le hnx
    rw [absorbPhases_eq_absorb hlt]
    have hbound : (absorb d p).nx ≤ 63 := by
      rw [absorb_nx hlt]
      omega
    exact ⟨exec_update_of_some hd p, hbound, absorb_w p d, absorb_s p d, absorb_nullt p d⟩
  · have hnx : (Digest.fresh .w256 salt).nx = 0 := rfl
    rw [absorbPhases_eq_absorb (by omega), absorb_of_short (by simp [hnx]), fresh_buf, List.nil_append]

end Sys2Proof.Proofs
end

