-- ==== Sys2Proof/Proofs/Compress.lean ====
section
/-! PROOFS of the family 41_compress: the G operation on natural numbers (O37), the reuse of permutations (O40), the
working array after step 2 (O41) and Compress put together (O42). -/

namespace Sys2Proof.Proofs

open Sys2Proof.Machine Sys2Proof.Laws

/-! ## Words on natural numbers -/

/-- `+32` of R10. -/
theorem word_add_toNat (x y : Word) : (x + y).toNat = add32 x.toNat y.toNat :=
  BitVec.toNat_add x y

/-- `rotr32` of R10: the bits shifted out on the right come in above those that stay, so that joining them is their
sum. -/
theorem rotr32_toNat (x : Word) {n : Nat} (h : n < 32) : (rotr32 x n).toNat = rotr32Nat x.toNat n := by
  have hsplit : 2 ^ 32 = 2 ^ n * 2 ^ (32 - n) := by rw [← Nat.pow_add, Nat.add_sub_cancel' h.le]
  have hkept : x.toNat / 2 ^ n < 2 ^ (32 - n) :=
    Nat.div_lt_of_lt_mul (x.isLt.trans_eq hsplit)
  have houtside : x.toNat <<< (32 - n) % 2 ^ 32 = (x.toNat % 2 ^ n) <<< (32 - n) := by
    rw [hsplit, Nat.shiftLeft_eq, Nat.shiftLeft_eq, Nat.mul_mod_mul_right]
  have hjoin : (rotr32 x n).toNat = x.toNat / 2 ^ n + (x.toNat % 2 ^ n) * 2 ^ (32 - n) := by
    rw [rotr32, BitVec.toNat_rotateRight, Nat.mod_eq_of_lt h, houtside, Nat.or_comm,
      Nat.shiftRight_eq_div_pow, ← Nat.shiftLeft_add_eq_or_of_lt hkept, Nat.shiftLeft_eq, Nat.add_comm]
  rw [rotr32Nat, ← hjoin, Nat.mod_eq_of_lt (rotr32 x n).isLt]

/-! ## The G operation -/

/-- The four words that a G operation computes (R108). -/
def mixed (m : Vector Word 16) (p : Fin 10) (g : Fin 8) (ia ib ic id : Fin 16) (v : Vector Word 16) : Quad :=
  mixG m[(mixIndices p g).1] m[(mixIndices p g).2] roundConst[(mixIndices p g).1] roundConst[(mixIndices p g).2]
    ⟨v[ia], v[ib], v[ic], v[id]⟩

/-- A G operation writes the four words it computes (R108). -/
theorem applyG_eq_set (m : Vector Word 16) (p : Fin 10) (g : Fin 8) (ia ib ic id : Fin 16) (v : Vector Word 16) :
    applyG m p g ia ib ic id v =
      (((v.set ia (mixed m p g ia ib ic id v).a).set ib (mixed m p g ia ib ic id v).b).set ic
        (mixed m p g ia ib ic id v).c).set id (mixed m p g ia ib ic id v).d := rfl

section Words
variable (m v : Vector Word 16) (p : Fin 10) (g : Fin 8) {ia ib ic id : Fin 16}

/-- A write seen at an index of `Fin 16`. -/
theorem getElem_set_fin (i k : Fin 16) (x : Word) : (v.set i x)[k] = if k = i then x else v[k] := by
  simp [Vector.getElem_set, Fin.val_inj, eq_comm]

/-- A G operation leaves every word but its four (R108). -/
theorem applyG_getElem_of_ne {k : Fin 16} (ha : k ≠ ia) (hb : k ≠ ib) (hc : k ≠ ic) (hd : k ≠ id) :
    (applyG m p g ia ib ic id v)[k] = v[k] := by
  simp only [applyG_eq_set, getElem_set_fin, ha, hb, hc, hd, if_false]

/-- On different indices no write of a G operation hides another (R108). -/
theorem applyG_getElem (hab : ia ≠ ib) (hac : ia ≠ ic) (had : ia ≠ id) (hbc : ib ≠ ic) (hbd : ib ≠ id)
    (hcd : ic ≠ id) :
    (applyG m p g ia ib ic id v)[ia] = (mixed m p g ia ib ic id v).a ∧
    (applyG m p g ia ib ic id v)[ib] = (mixed m p g ia ib ic id v).b ∧
    (applyG m p g ia ib ic id v)[ic] = (mixed m p g ia ib ic id v).c ∧
    (applyG m p g ia ib ic id v)[id] = (mixed m p g ia ib ic id v).d := by
  simp only [applyG_eq_set, getElem_set_fin, hab, hac, had, hbc, hbd, hcd, if_true, if_false, and_self]

end Words

/-- Settles O37: the four words are those of `mixG`, whose assignments are R108's on natural numbers, operation by
operation. -/
theorem gOperationAssignments : Obligations.GOperationAssignments := by
  intro m v p g ia ib ic id hab hac had hbc hbd hcd i j
  obtain ⟨ha, hb, hc, hd⟩ := applyG_getElem m v p g hab hac had hbc hbd hcd
  simp (disch := decide) only [ha, hb, hc, hd, mixed, mixG, mixIndices, word_add_toNat, BitVec.toNat_xor,
    rotr32_toNat, i, j, true_and]
  exact fun k => applyG_getElem_of_ne m v p g

/-! ## The rounds -/

/-- The permutation rows repeat every ten rounds (R110). -/
theorem permutationRow_add_ten {r : Nat} (h : 1 ≤ r) : permutationRow (r + 10) = permutationRow r :=
  Fin.ext (show (r + 10 - 1) % 10 = (r - 1) % 10 by omega)

/-- A round depends on its number through the permutation row alone (R107). -/
theorem round_congr {r r' : Nat} (h : permutationRow r = permutationRow r') (m v : Vector Word 16) :
    round m v r = round m v r' := by
  rw [Machine.round, Machine.round, h]

/-- Settles O40: the row is the definition's formula; rounds ten apart have the same row, and a round depends on its row
alone. -/
theorem roundsReusePermutations : Obligations.RoundsReusePermutations := by
  refine ⟨fun _ _ _ => rfl, fun m v r hlow _ => round_congr ?_ m v⟩
  have hsub : r - 10 + 10 = r := by omega
  rw [← permutationRow_add_ten (r := r - 10) (by omega), hsub]

/-! ## The working array after step 2 -/

/-- The chain value stands in words 0 to 7 (R103). -/
theorem initWork_chain (h : Vector Word 8) (s : Vector Word 4) (k : Fin 8) : (initWork h s)[k.val] = h[k] := by
  fin_cases k <;> rfl

/-- The salted constants stand in words 8 to 11 (R103). -/
theorem initWork_salted (h : Vector Word 8) (s : Vector Word 4) (k : Fin 4) :
    (initWork h s)[k.val + 8] = roundConst[k.val] ^^^ s[k] := by
  fin_cases k <;> rfl

/-- The counter is injected into words 12 to 15 only (R104). -/
theorem injectCounter_getElem_of_lt (t : Counter) (nullt : Bool) (v : Vector Word 16) {k : Nat} (h : k < 12) :
    (injectCounter t nullt v)[k] = v[k] := by
  cases nullt with
  | true => rfl
  | false =>
    rw [injectCounter, if_neg Bool.false_ne_true, Vector.getElem_set_ne _ _ (by omega),
      Vector.getElem_set_ne _ _ (by omega), Vector.getElem_set_ne _ _ (by omega), Vector.getElem_set_ne _ _ (by omega)]

/-- The low half of the counter goes into words 12 and 13, the high half into words 14 and 15 (R104). -/
theorem injectCounter_getElem_counter (t : Counter) (v : Vector Word 16) :
    (injectCounter t false v)[12] = v[12] ^^^ lo32 t ∧ (injectCounter t false v)[13] = v[13] ^^^ lo32 t ∧
    (injectCounter t false v)[14] = v[14] ^^^ hi32 t ∧ (injectCounter t false v)[15] = v[15] ^^^ hi32 t := by
  simp [injectCounter]

/-- The skip-counter flag does what a counter of 0 does (R104). -/
theorem injectCounter_skip (t : Counter) (v : Vector Word 16) : injectCounter t true v = injectCounter 0 false v := by
  have hlo (w : Word) : w ^^^ lo32 0 = w := BitVec.xor_zero
  have hhi (w : Word) : w ^^^ hi32 0 = w := BitVec.xor_zero
  rw [injectCounter, injectCounter, if_pos rfl, if_neg Bool.false_ne_true, hlo, hlo, hhi, hhi]
  simp only [Vector.set_getElem_self]

/-- Settles O41: the words of `initWork`, of which the last four meet the counter. -/
theorem workingArrayAfterInjection : Obligations.WorkingArrayAfterInjection := by
  intro h s t v
  obtain ⟨h12, h13, h14, h15⟩ := injectCounter_getElem_counter t (initWork h s)
  refine ⟨fun k => ?chain, fun k => ?salted, h12, h13, h14, h15, injectCounter_skip t _⟩
  case chain => exact (injectCounter_getElem_of_lt t false _ (by omega)).trans (initWork_chain h s k)
  case salted => exact (injectCounter_getElem_of_lt t false _ (by omega)).trans (initWork_salted h s k)

/-! ## Compress -/

/-- Word `k` of the feed-forward (R111). -/
theorem feedForward_getElem (h : Vector Word 8) (s : Vector Word 4) (v : Vector Word 16) (k : Fin 8) :
    (feedForward h s v)[k] = h[k] ^^^ v[k.val] ^^^ v[k.val + 8] ^^^ s[k.val % 4] :=
  Vector.getElem_ofFn k.isLt

/-- The chain value Compress returns: fourteen rounds from the advanced counter, then the feed-forward (R100, R102). -/
theorem compress_chain (h : Vector Word 8) (s : Vector Word 4) (t : Counter) (nullt : Bool) (block : List Byte) :
    (compress h s t nullt block).1 =
      feedForward h s (allRounds (parseBlock block) (injectCounter (t + 512) nullt (initWork h s))) := rfl

/-- Settles O42: the counter wraps modulo 2^64, and each chain word is one of the feed-forward after the rounds. -/
theorem compressCombines : Obligations.CompressCombines := by
  intro h s t nullt block m v
  refine ⟨?counter, fun k => ?chain⟩
  case counter => rw [compress_counter, BitVec.toNat_add]; rfl
  case chain => rw [compress_chain, allRounds_eq, feedForward_getElem]

end Sys2Proof.Proofs
end

