-- ==== Sys2Proof/Proofs/Finalize.lean ====
section
/-! PROOFS of the family 42_finalize: FINAL does not disturb the message (O44). The record is a function of the Digest
State, which FINAL keeps, so that whatever follows FINAL finds the Digest State it would have found without it. -/

namespace Sys2Proof.Proofs

open Sys2Proof.Machine Sys2Proof.Laws

/-- FINAL keeps the Digest State and appends the record of that Digest State (R120, R130). -/
theorem exec_final_keeps_digest {s : State} {d : Digest} (h : s.digest = some d) :
    ∃ t, exec .final s = .next t ∧ t.digest = some d ∧ t.out = s.out ++ [digestRecord d] :=
  ⟨_, exec_final_of_some h, h, rfl⟩

/-- The Digest State after UPDATE depends on the state through the Digest State alone (R90). -/
theorem exec_update_digest_congr {s t : State} {d : Digest} (hs : s.digest = some d) (ht : t.digest = some d)
    (p : List Byte) :
    ∃ u u', exec (.update p) t = .next u ∧ exec (.update p) s = .next u' ∧ u.digest = u'.digest :=
  ⟨_, _, exec_update_of_some ht p, exec_update_of_some hs p, rfl⟩

/-- Settles O44: the second FINAL and the UPDATE start from the Digest State that the first FINAL kept. -/
theorem finalLeavesMessage : Obligations.FinalLeavesMessage := by
  intro s d hd
  obtain ⟨t, hfinal, hkept, hout⟩ := exec_final_keeps_digest hd
  obtain ⟨u, hagain, hkeptAgain, houtAgain⟩ := exec_final_keeps_digest hkept
  refine ⟨t, digestRecord d, hfinal, hkept, hout, ⟨u, hagain, hkeptAgain, ?_⟩, exec_update_digest_congr hd hkept⟩
  calc u.out = s.out ++ [digestRecord d] ++ [digestRecord d] := by rw [houtAgain, hout]
    _ = s.out ++ [digestRecord d, digestRecord d] := List.append_assoc ..

end Sys2Proof.Proofs
end

/-! PROOFS of the family 43_lifecycle: the constructions (O24, O25, O26) and RESET (O27). The constructions are one
operation, `construct`, at two widths, and its whole next state is said once; the salt goes through the bytes of its
words, of which R145's injectivity is a consequence. -/

namespace Sys2Proof.Proofs

open Sys2Proof.Machine Sys2Proof.Laws

/-! ## The salt operand -/

/-- The value of a word assembled from four bytes, as R10 prints it: its four base-256 digits are the bytes. -/
theorem be32_toNat (b0 b1 b2 b3 : Byte) : (be32 b0 b1 b2 b3).toNat = be32Nat b0 b1 b2 b3 := by
  have digit {j : Nat} (hj : j < 4) : ([b0, b1, b2, b3].getD j 0).toNat =
      (be32 b0 b1 b2 b3).toNat / 2 ^ (24 - 8 * j) % 256 := by
    rw [← be32bytes_be32, be32bytes_getD_toNat _ hj]
  have h0 : b0.toNat = _ := digit (j := 0) (by decide)
  have h1 : b1.toNat = _ := digit (j := 1) (by decide)
  have h2 : b2.toNat = _ := digit (j := 2) (by decide)
  have h3 : b3.toNat = _ := digit (j := 3) (by decide)
  have hlt := (be32 b0 b1 b2 b3).isLt
  rw [be32Nat]
  omega

/-- The bytes of the word read at index `i` are the bytes at `i` to `i + 3` (R10). -/
theorem be32bytes_wordAt_getD (p : List Byte) (i : Nat) {j : Nat} (hj : j < 4) :
    (be32bytes (wordAt p i)).getD j 0 = p.getD (i + j) 0 := by
  rw [wordAt, be32bytes_be32]
  match j with
  | 0 => rfl
  | 1 => rfl
  | 2 => rfl
  | 3 => rfl

theorem packSalt_getElem (p : List Byte) (k : Fin 4) : (packSalt p)[k] = wordAt p (4 * k.val) :=
  Vector.getElem_ofFn k.isLt

/-- Byte `i` of a salt stands in the packed salt: it is byte `i mod 4` of word `i / 4` (R144). -/
theorem packSalt_byte (p : List Byte) {i : Nat} (hi : i / 4 < 4) :
    (be32bytes (packSalt p)[i / 4]).getD (i % 4) 0 = p.getD i 0 := by
  have hword : (packSalt p)[i / 4] = wordAt p (4 * (i / 4)) := packSalt_getElem p ⟨i / 4, hi⟩
  rw [hword, be32bytes_wordAt_getD _ _ (Nat.mod_lt i (by decide)), Nat.div_add_mod]

/-- Salts of 16 bytes that pack to the same words are the same (R145). -/
theorem packSalt_injective {p q : List Byte} (hp : p.length = 16) (hq : q.length = 16)
    (h : packSalt p = packSalt q) : p = q := by
  refine List.ext_getElem (hp.trans hq.symm) fun i hip hiq => ?_
  have hi : i / 4 < 4 := by omega
  calc p[i] = p.getD i 0 := List.getElem_eq_getD 0
    _ = q.getD i 0 := by rw [← packSalt_byte p hi, h, packSalt_byte q hi]
    _ = q[i] := (List.getElem_eq_getD 0).symm

theorem packSalt_zeros : packSalt (List.replicate 16 0) = zeroSalt := by decide

/-! ## Construction -/

/-- Construction, the whole next state: everything but the Digest State and `PC` is kept (R140, R141). -/
theorem construct_eq (w : Width) (salt : Vector Word 4) (len : Nat) (s : State) :
    construct w salt len s =
      { s with
        digest := some { w := w, h := initialVector w, s := salt, t := 0, nullt := false, buf := [] }
        pc := s.pc + 4 + len } :=
  rfl

/-- The length of the packet constructed from shows in `PC` alone (R145). -/
theorem construct_eq_construct_with_pc (w : Width) (salt : Vector Word 4) (len len' : Nat) (s : State) :
    construct w salt len s = { construct w salt len' s with pc := s.pc + 4 + len } :=
  rfl

theorem exec_init256 (s : State) : exec .init256 s = .next (construct .w256 zeroSalt 0 s) := rfl

theorem exec_init224 (s : State) : exec .init224 s = .next (construct .w224 zeroSalt 0 s) := rfl

theorem constructSalted_of_length_eq {p : List Byte} (h : p.length = 16) (w : Width) (s : State) :
    constructSalted w p s = construct w (packSalt p) 16 s := by
  obtain ⟨hne, -⟩ | ⟨-, hconstruct⟩ := constructSalted_cases w p s
  · exact absurd h hne
  · exact hconstruct

theorem exec_init256S_of_length_eq {p : List Byte} (h : p.length = 16) (s : State) :
    exec (.init256S p) s = .next (construct .w256 (packSalt p) 16 s) :=
  congrArg Host.Outcome.next (constructSalted_of_length_eq h .w256 s)

theorem exec_init224S_of_length_eq {p : List Byte} (h : p.length = 16) (s : State) :
    exec (.init224S p) s = .next (construct .w224 (packSalt p) 16 s) :=
  congrArg Host.Outcome.next (constructSalted_of_length_eq h .w224 s)

/-- INIT224.S with a salt of a wrong length raises `InvalidSaltLength` and writes nothing else (R141, R161, R166). -/
theorem exec_init224S_of_length_ne {p : List Byte} (h : p.length ≠ 16) (s : State) :
    exec (.init224S p) s = .next (raiseFault .invalidSaltLength s) := by
  obtain ⟨-, hfault⟩ | ⟨hlen, -⟩ := constructSalted_cases .w224 p s
  · exact congrArg _ hfault
  · exact absurd hlen h

/-- Settles O25: the salt words are the packed salt's, by value; a wrong length is refused before any write. -/
theorem saltedInitConstructsOrFaults : Obligations.SaltedInitConstructsOrFaults := by
  refine fun p s => ⟨fun hlen => ⟨packSalt p, fun k => ?words, ?init256S, ?init224S⟩, fun hlen => ?refused⟩
  case words => rw [packSalt_getElem, wordAt, be32_toNat]
  case init256S => rw [exec_init256S_of_length_eq hlen, construct_eq]; rfl
  case init224S => rw [exec_init224S_of_length_eq hlen, construct_eq]; rfl
  case refused => exact ⟨exec_init256S_of_length_ne hlen s, exec_init224S_of_length_ne hlen s⟩

/-- Settles O26: sixteen zero bytes pack to the default salt, and packing is injective. -/
theorem zeroSaltEqualsNoSalt : Obligations.ZeroSaltEqualsNoSalt := by
  have hzeros : (List.replicate 16 (0 : Byte)).length = 16 := List.length_replicate
  refine ⟨fun s => ⟨construct .w256 zeroSalt 0 s, construct .w224 zeroSalt 0 s, exec_init256 s, exec_init224 s,
    rfl, rfl, ?init256S, ?init224S⟩, fun p q hp hq => mt (packSalt_injective hp hq)⟩
  case init256S =>
    rw [exec_init256S_of_length_eq hzeros, packSalt_zeros, construct_eq_construct_with_pc .w256 zeroSalt 16 0 s]
  case init224S =>
    rw [exec_init224S_of_length_eq hzeros, packSalt_zeros, construct_eq_construct_with_pc .w224 zeroSalt 16 0 s]

/-- Settles O24: construction with the default salt, whose four words are zero (R140, R142, R143). -/
theorem initConstructs : Obligations.InitConstructs := by
  intro s
  have hzero : zeroSalt = #v[0, 0, 0, 0] := rfl
  refine ⟨?init256, ?init224⟩
  case init256 => rw [exec_init256, construct_eq, hzero]; rfl
  case init224 => rw [exec_init224, construct_eq, hzero]; rfl

/-! ## Software reset -/

/-- RESET leaves the Digest State that a construction with the width and salt kept would leave (R146). -/
theorem exec_reset_eq_construct {s : State} {d : Digest} (h : s.digest = some d) :
    exec .reset s = .next (construct d.w d.s 0 s) := by
  rw [exec_reset_of_some h, restarted_eq]
  rfl

/-- Without a Digest State RESET raises `NotConstructed` and writes nothing else (R146, R163, R166). -/
theorem exec_reset_of_cfg_eq_zero {s : State} (h : s.cfg = 0) :
    exec .reset s = .next { s with err := .notConstructed } :=
  whenConstructed_of_none ((cfg_eq_zero_iff s).1 h) _

/-- Settles O27: RESET constructs again with the width and salt kept, which a fresh Digest State does not show. -/
theorem resetRestartsMessage : Obligations.ResetRestartsMessage := by
  refine ⟨fun s d hd => ?constructed, fun s hcfg => exec_reset_of_cfg_eq_zero hcfg, fun s w salt hfresh => ?fresh⟩
  case constructed =>
    rw [exec_reset_eq_construct hd, construct_eq]
    obtain ⟨w, h, salt, t, nullt, buf⟩ := d
    cases w with
    | w256 => rfl
    | w224 => rfl
  case fresh =>
    have hkept : s.setDigest (Digest.fresh w salt) = s := setDigest_of_digest_eq hfresh
    rw [exec_reset_of_some hfresh, restarted_eq, fresh_w, fresh_s, hkept]
    rfl

end Sys2Proof.Proofs

/-! PROOFS of the family 60_exceptions: `IllegalCommand` (O11) and `NotConstructed` (O28). For O11 the table of R73 is
read field by field: a header that selects a row has the row's fields, and none of these is on the list of R76. -/

namespace Sys2Proof.Proofs

open Sys2Proof.Machine Sys2Proof.Laws

/-! ## Reserved headers select no row -/

/-- Every mask of the table of R73 covers all of `OPC`, `RSV`, `SALT` and `W224`; only `LEN` may be left free. -/
theorem mask_fields_of_mem_commandRows {row : CommandRow} (h : row ∈ commandRows) :
    opcField row.mask = BitVec.allOnes 8 ∧ rsvField row.mask = BitVec.allOnes 6 ∧
      saltField row.mask = BitVec.allOnes 1 ∧ w224Field row.mask = BitVec.allOnes 1 := by
  revert row
  decide

/-- A masked comparison of headers is a masked comparison of each field (R71, R73). -/
theorem masked_fields_of_selects {row : CommandRow} {hdr : Word} (h : row.selects hdr = true) :
    opcField hdr &&& opcField row.mask = opcField row.pattern ∧
      rsvField hdr &&& rsvField row.mask = rsvField row.pattern ∧
      saltField hdr &&& saltField row.mask = saltField row.pattern ∧
      w224Field hdr &&& w224Field row.mask = w224Field row.pattern ∧
      lenField hdr &&& lenField row.mask = lenField row.pattern := by
  rw [← show hdr &&& row.mask = row.pattern from beq_iff_eq.1 h]
  exact ⟨BitVec.extractLsb'_and.symm, BitVec.extractLsb'_and.symm, BitVec.extractLsb'_and.symm,
    BitVec.extractLsb'_and.symm, BitVec.extractLsb'_and.symm⟩

/-- A header that selects a row of the table of R73 has the fields of the row's command. -/
theorem fieldsSelect_of_selects {row : CommandRow} {hdr : Word} (hrow : row ∈ commandRows)
    (h : row.selects hdr = true) : fieldsSelect hdr row.command := by
  obtain ⟨hopcMask, hrsvMask, hsaltMask, hw224Mask⟩ := mask_fields_of_mem_commandRows hrow
  obtain ⟨hopc, hrsv, hsalt, hw224, hlen⟩ := masked_fields_of_selects h
  rw [hopcMask, BitVec.and_allOnes] at hopc
  rw [hrsvMask, BitVec.and_allOnes] at hrsv
  rw [hsaltMask, BitVec.and_allOnes] at hsalt
  rw [hw224Mask, BitVec.and_allOnes] at hw224
  have lenFixed (hfull : lenField row.mask = BitVec.allOnes 16) : lenField hdr = lenField row.pattern := by
    rw [← hlen, hfull, BitVec.and_allOnes]
  simp only [commandRows, List.mem_cons, List.not_mem_nil, or_false] at hrow
  obtain rfl | rfl | rfl | rfl | rfl | rfl | rfl := hrow
  · exact ⟨hopc, hrsv, hsalt, hw224, lenFixed rfl⟩
  · exact ⟨hopc, hrsv, hsalt, hw224, lenFixed rfl⟩
  · exact ⟨hopc, hrsv, hsalt, hw224⟩
  · exact ⟨hopc, hrsv, hsalt, hw224⟩
  · exact ⟨hopc, hrsv, hsalt, hw224⟩
  · exact ⟨hopc, hrsv, hsalt, hw224, lenFixed rfl⟩
  · exact ⟨hopc, hrsv, hsalt, hw224, lenFixed rfl⟩

/-- The command that the decoder takes from a header is the one whose fields the header has (R71, R73). -/
theorem fieldsSelect_of_commandOf {hdr : Word} {c : Command} (h : commandOf hdr = some c) : fieldsSelect hdr c := by
  obtain ⟨row, hfind, rfl⟩ := Option.map_eq_some_iff.1 h
  exact fieldsSelect_of_selects (List.mem_of_find?_eq_some hfind)
    (List.find?_some (p := fun row : CommandRow => row.selects hdr) hfind)

/-- No condition on the list of R76 holds of the fields of a command. -/
theorem not_reservedHeader_of_fieldsSelect {hdr : Word} {c : Command} (h : fieldsSelect hdr c) :
    ¬ reservedHeader hdr := by
  cases c with
  | init256 | init224 | final | reset =>
    obtain ⟨hopc, hrsv, hsalt, hw224, hlen⟩ := h
    simp [reservedHeader, hopc, hrsv, hsalt, hw224, hlen]
  | init256S | init224S | update =>
    obtain ⟨hopc, hrsv, hsalt, hw224⟩ := h
    simp [reservedHeader, hopc, hrsv, hsalt, hw224]

/-- A header on the list of R76 selects no row of the table of R73. -/
theorem commandOf_of_reservedHeader {hdr : Word} (h : reservedHeader hdr) : commandOf hdr = none := by
  cases hc : commandOf hdr with
  | none => rfl
  | some c => exact absurd h (not_reservedHeader_of_fieldsSelect (fieldsSelect_of_commandOf hc))

/-! ## The header at `PC` -/

/-- A byte present at an offset is the first of those available there (R62). -/
theorem run_eq_cons_of_read? {m : Memory} (h : m.wf) {a : Nat} {b : Byte} (hb : m.read? a = some b) :
    m.run a = b :: m.run (a + 1) := by
  rw [run_eq_cons_iff h, hb]

/-- Four bytes present at `PC` are the header that the decoder reads there (R70, R78). -/
theorem fetch_of_read? {s : State} {b0 b1 b2 b3 : Byte} (h : s.cmd.wf) (h0 : s.cmd.read? s.pc = some b0)
    (h1 : s.cmd.read? (s.pc + 1) = some b1) (h2 : s.cmd.read? (s.pc + 2) = some b2)
    (h3 : s.cmd.read? (s.pc + 3) = some b3) :
    fetch s = decode ([b0, b1, b2, b3] ++ s.cmd.run (s.pc + 4)) := by
  rw [fetch, run_eq_cons_of_read? h h0, run_eq_cons_of_read? h h1, run_eq_cons_of_read? h h2,
    run_eq_cons_of_read? h h3]
  rfl

/-- Settles O11: a reserved header selects no row, so the decoder rejects it whatever follows, and the step takes
`IllegalCommand` (R78, R162, R166). -/
theorem illegalCommandRaised : Obligations.IllegalCommandRaised := by
  intro s b0 b1 b2 b3 herr hwf h0 h1 h2 h3 hreserved
  have hfetch : fetch s = .reserved := by
    rw [fetch_of_read? hwf h0 h1 h2 h3]
    exact decode_append_of_reserved (commandOf_of_reservedHeader hreserved) _
  exact (step_next_iff s _).2 ⟨herr, .inl ⟨hfetch, rfl⟩⟩

/-! ## Commands before construction -/

/-- Without a Digest State FINAL raises `NotConstructed` and writes nothing else (R120, R163, R166). -/
theorem exec_final_of_cfg_eq_zero {s : State} (h : s.cfg = 0) :
    exec .final s = .next { s with err := .notConstructed } :=
  whenConstructed_of_none ((cfg_eq_zero_iff s).1 h) _

/-- Settles O28: each of the three commands needs a Digest State, which `CFG = 0` says is not there (R30, R163). -/
theorem notConstructedRaised : Obligations.NotConstructedRaised := fun _ p hcfg =>
  ⟨exec_update_of_cfg_eq_zero hcfg p, exec_final_of_cfg_eq_zero hcfg, exec_reset_of_cfg_eq_zero hcfg⟩

end Sys2Proof.Proofs

/-! PROOFS of the family other, what one step can write: a fault writes `ERR` alone (O14), a command that completes
leaves everything the step promises to leave (O15), and which commands complete (O29). -/

namespace Sys2Proof.Proofs

open Sys2Proof.Machine Sys2Proof.Laws

/-- What a command that completes leaves: `ERR` and `CMD` as they were, `PC` past the packet, a Digest State, and at
most one record more (R30, R32, R33, R66, R75). -/
structure Completed (i : Instr) (s t : State) : Prop where
  err : t.err = s.err
  cmd : t.cmd = s.cmd
  pc : t.pc = s.pc + 4 + i.payload.length
  digest : ∃ d, t.digest = some d
  out : t.out = s.out ∨ ∃ record, t.out = s.out ++ [record]

/-- A command takes a fault or completes. -/
theorem exec_faults_or_completes {i : Instr} {s t : State} (h : exec i s = .next t) :
    (∃ e, e ≠ .none ∧ t = raiseFault e s) ∨ Completed i s t := by
  obtain hfault | ⟨w, salt, rfl⟩ | ⟨d, hd, rfl⟩ | ⟨d, hd, rfl⟩ | ⟨d, hd, rfl⟩ := exec_cases h
  · exact .inl hfault
  · exact .inr ⟨rfl, rfl, rfl, ⟨_, rfl⟩, .inl rfl⟩
  · exact .inr ⟨rfl, rfl, rfl, ⟨_, rfl⟩, .inl rfl⟩
  · exact .inr ⟨rfl, rfl, rfl, ⟨d, hd⟩, .inr ⟨_, rfl⟩⟩
  · exact .inr ⟨rfl, rfl, rfl, ⟨_, rfl⟩, .inl rfl⟩

/-- A step takes a fault, or the command fetched completes (R78). -/
theorem step_faults_or_completes {s t : State} (h : step s = .next t) :
    s.err = .none ∧
      ((∃ e, e ≠ .none ∧ t = raiseFault e s) ∨ ∃ i rest, fetch s = .command i rest ∧ Completed i s t) := by
  obtain ⟨herr, ⟨-, rfl⟩ | ⟨i, rest, hfetch, hexec⟩⟩ := (step_next_iff s t).1 h
  · exact ⟨herr, .inl ⟨_, by decide, rfl⟩⟩
  · exact ⟨herr, (exec_faults_or_completes hexec).imp_right fun hdone => ⟨i, rest, hfetch, hdone⟩⟩

theorem step_of_err_ne_none {s : State} (herr : s.err ≠ .none) : step s = .fault .halted := by
  have hhalted : s.isHalted = true := by
    rw [← Bool.not_eq_false, isHalted_eq_false_iff]
    exact herr
  rw [step, if_pos hhalted]

/-- Settles O14: a command that completes keeps `ERR` at 0, and taking a fault writes `ERR` alone (R166). -/
theorem faultEntryWritesOnlyErr : Obligations.FaultEntryWritesOnlyErr := by
  intro s t hstep hfault
  obtain ⟨herr, ⟨e, -, rfl⟩ | ⟨i, rest, -, hdone⟩⟩ := step_faults_or_completes hstep
  · exact ⟨herr, rfl, step_of_err_ne_none hfault⟩
  · exact absurd (hdone.err.trans herr) hfault

/-- Settles O15: each clause holds of a fault taken and of a command completed. -/
theorem stepIsMonotone : Obligations.StepIsMonotone := by
  intro s t hstep
  obtain ⟨herr, ⟨e, he, rfl⟩ | ⟨i, rest, hfetch, hdone⟩⟩ := step_faults_or_completes hstep
  · exact ⟨herr, rfl, id, .inl rfl, .inl ⟨he, rfl⟩⟩
  · exact ⟨herr, hdone.cmd, fun _ => (cfg_eq_one_iff t).2 hdone.digest, hdone.out,
      .inr ⟨hdone.err.trans herr, i, rest, hfetch, hdone.pc⟩⟩

/-- Settles O29: each of the five commands completes where it needs no Digest State or finds one (R164). -/
theorem constructedCommandsNeverFault : Obligations.ConstructedCommandsNeverFault := by
  rintro s i (rfl | rfl | ⟨hcfg, hi⟩)
  · exact ⟨_, exec_init256 s, rfl, rfl, rfl⟩
  · exact ⟨_, exec_init224 s, rfl, rfl, rfl⟩
  · obtain ⟨d, hd⟩ := (cfg_eq_one_iff s).1 hcfg
    obtain rfl | rfl | ⟨p, rfl⟩ := hi
    · exact ⟨_, exec_final_of_some hd, rfl, hcfg, rfl⟩
    · exact ⟨_, exec_reset_of_some hd, rfl, rfl, rfl⟩
    · exact ⟨_, exec_update_of_some hd p, rfl, rfl, rfl⟩

end Sys2Proof.Proofs

/-! PROOFS of the family other, the encoding: decoding and encoding are inverse to each other (O5, O6), mask and match
are the header's fields (O2, O3), and the reserved headers are the others (O4). -/

namespace Sys2Proof.Proofs

open Sys2Proof.Machine Sys2Proof.Laws

/-- Settles O5: a command's header selects the command's row and announces its payload. -/
theorem decodeOfEncode : Obligations.DecodeOfEncode := fun _ rest hwf => decode_encode_append hwf rest

/-! ## A header from its fields -/

/-- A header without reserved bits is put together again from its fields (R71). -/
theorem headerWord_fields {hdr : Word} (h : rsvField hdr = 0) :
    headerWord (opcField hdr) (saltField hdr) (w224Field hdr) (lenField hdr).toNat = hdr := by
  rw [headerWord, ← h, BitVec.ofNat_toNat, BitVec.setWidth_eq, opcField, rsvField, saltField, w224Field, lenField]
  rw [BitVec.extractLsb'_append_extractLsb'_eq_extractLsb', BitVec.extractLsb'_append_extractLsb'_eq_extractLsb',
    BitVec.extractLsb'_append_extractLsb'_eq_extractLsb', BitVec.extractLsb'_append_extractLsb'_eq_extractLsb']
  · exact BitVec.extractLsb'_eq_self
  all_goals rfl

/-- The fields of a command's row leave one header for each length (R71, R73). -/
theorem encodeHeader_withPayload_of_fieldsSelect {hdr : Word} {c : Command} {p : List Byte} (h : fieldsSelect hdr c)
    (hp : p.length = (lenField hdr).toNat) : encodeHeader (c.withPayload p) = hdr := by
  cases c with
  | init256 | init224 | final | reset =>
    obtain ⟨hopc, hrsv, hsalt, hw224, hlen⟩ := h
    rw [← headerWord_fields hrsv, hopc, hsalt, hw224, hlen]
    rfl
  | init256S | init224S | update =>
    obtain ⟨hopc, hrsv, hsalt, hw224⟩ := h
    rw [← headerWord_fields hrsv, hopc, hsalt, hw224, ← hp]
    rfl

/-- The payload of a packet is the command's operand, empty where the row's `LEN` is 0 (R73, R77). -/
theorem payload_withPayload_of_fieldsSelect {hdr : Word} {c : Command} {p : List Byte} (h : fieldsSelect hdr c)
    (hp : p.length = (lenField hdr).toNat) : (c.withPayload p).payload = p := by
  cases c with
  | init256 | init224 | final | reset =>
    obtain ⟨-, -, -, -, hlen⟩ := h
    rw [hlen] at hp
    exact (List.length_eq_zero_iff.1 hp).symm
  | init256S | init224S | update => rfl

/-- An operand that `LEN` can announce makes a well-formed command (R70). -/
theorem withPayload_wellFormed (c : Command) {p : List Byte} (hp : p.length ≤ 65535) :
    (c.withPayload p).wellFormed = true := by
  cases c with
  | init256 | init224 | final | reset => rfl
  | init256S | init224S | update => exact decide_eq_true hp

/-! ## Decoding -/

/-- What a packet says once it decodes: the header is its command's, and the payload follows it (R73, R77, R78). -/
theorem decodeAfterHeader_command {hdr : Word} {p rest : List Byte} {i : Instr}
    (h : decodeAfterHeader hdr p = .command i rest) :
    i.wellFormed = true ∧ hdr = encodeHeader i ∧ p = i.payload ++ rest := by
  obtain ⟨-, hreserved⟩ | ⟨c, hc, ⟨-, hshort⟩ | ⟨hlen, hcommand⟩⟩ := decodeAfterHeader_cases hdr p
  · rw [hreserved] at h
    cases h
  · rw [hshort] at h
    cases h
  · rw [hcommand] at h
    cases h
    have hfields := fieldsSelect_of_commandOf hc
    have htake : (p.take (lenField hdr).toNat).length = (lenField hdr).toNat := List.length_take_of_le hlen
    refine ⟨withPayload_wellFormed c (htake.trans_le (lenField_le hdr)),
      (encodeHeader_withPayload_of_fieldsSelect hfields htake).symm, ?_⟩
    rw [payload_withPayload_of_fieldsSelect hfields htake, List.take_append_drop]

/-- Bytes that decode to a command are its encoding and the bytes after it (R73, R78). -/
theorem eq_encode_of_decode {bytes rest : List Byte} {i : Instr} (h : decode bytes = .command i rest) :
    i.wellFormed = true ∧ bytes = encode i ++ rest := by
  match bytes with
  | b0 :: b1 :: b2 :: b3 :: p =>
    obtain ⟨hwf, hhdr, rfl⟩ := decodeAfterHeader_command h
    refine ⟨hwf, ?_⟩
    rw [encode, ← hhdr, be32bytes_be32, List.append_assoc]
    rfl
  | [] | [_] | [_, _] | [_, _, _] => cases h

/-- Settles O6: the fields of the row that a header selects, and its length, leave no other header. -/
theorem encodeOfDecode : Obligations.EncodeOfDecode := fun _ _ _ => eq_encode_of_decode

/-! ## The rows of the table -/

/-- A command's header selects the command's row, whatever the operand (R73). -/
theorem commandOf_encodeHeader_withPayload (c : Command) (p : List Byte) :
    commandOf (encodeHeader (c.withPayload p)) = some c := by
  cases c with
  | init256 | init224 | final | reset =>
    simp only [Command.withPayload]
    rfl
  | init256S => exact (commandOf_append_of_freeLen _).1
  | init224S => exact (commandOf_append_of_freeLen _).2.1
  | update => exact (commandOf_append_of_freeLen _).2.2

/-- A header with the fields of a command's row selects that row (R71, R73). -/
theorem commandOf_of_fieldsSelect {hdr : Word} {c : Command} (h : fieldsSelect hdr c) : commandOf hdr = some c := by
  have hlen : (List.replicate (lenField hdr).toNat (0 : Byte)).length = (lenField hdr).toNat := List.length_replicate
  rw [← encodeHeader_withPayload_of_fieldsSelect h hlen, commandOf_encodeHeader_withPayload]

/-- Settles O3: the masks leave the fields of the row, and the fields leave the header of the row. -/
theorem headerFieldsSelectCommand : Obligations.HeaderFieldsSelectCommand := fun _ _ =>
  ⟨fieldsSelect_of_commandOf, commandOf_of_fieldsSelect⟩

/-- No command has two rows in the table of R73. -/
theorem commandRow_eq_of_command_eq :
    ∀ r ∈ commandRows, ∀ r' ∈ commandRows, r.command = r'.command → r = r' := by
  decide

/-- Settles O2: both rows are the row of the one command that the header selects. -/
theorem commandRowsDisjoint : Obligations.CommandRowsDisjoint := by
  intro hdr r hr r' hr' hsel hsel'
  have hcommand := commandOf_of_fieldsSelect (fieldsSelect_of_selects hr hsel)
  have hcommand' := commandOf_of_fieldsSelect (fieldsSelect_of_selects hr' hsel')
  exact commandRow_eq_of_command_eq r hr r' hr' (Option.some.inj (hcommand.symm.trans hcommand'))

/-- The opcodes that R76 does not reserve are those of the table of R73. -/
theorem opcField_cases {hdr : Word} (h : ¬ reservedHeader hdr) :
    opcField hdr = 0x01 ∨ opcField hdr = 0x02 ∨ opcField hdr = 0x03 ∨ opcField hdr = 0x04 := by
  simp only [reservedHeader, not_or] at h
  obtain ⟨hzero, hlarge, -⟩ := h
  bv_omega

/-- Behind the opcodes of UPDATE, FINAL and RESET only headers without flags escape R76. -/
theorem flags_eq_zero_of_not_reservedHeader {hdr : Word} (h : ¬ reservedHeader hdr)
    (hopc : opcField hdr ∈ [0x02, 0x03, 0x04]) : saltField hdr = 0 ∧ w224Field hdr = 0 := by
  simp only [reservedHeader, not_or, not_and] at h
  obtain ⟨-, -, -, hflags, -⟩ := h
  obtain ⟨hsalt, hw224⟩ := hflags hopc
  exact ⟨(BitVec.eq_zero_or_eq_one _).resolve_right hsalt, (BitVec.eq_zero_or_eq_one _).resolve_right hw224⟩

/-- A header that is not on the list of R76 has the fields of some row of R73. -/
theorem exists_fieldsSelect_of_not_reservedHeader {hdr : Word} (h : ¬ reservedHeader hdr) :
    ∃ c, fieldsSelect hdr c := by
  have hopcode := opcField_cases h
  have hnoflags := flags_eq_zero_of_not_reservedHeader h
  simp only [reservedHeader, not_or, not_and, not_not] at h
  obtain ⟨-, -, hrsv, -, hlen, hlenInit⟩ := h
  obtain hopc | hopc | hopc | hopc := hopcode
  · obtain hsalt | hsalt := BitVec.eq_zero_or_eq_one (saltField hdr) <;>
      obtain hw224 | hw224 := BitVec.eq_zero_or_eq_one (w224Field hdr)
    · exact ⟨.init256, hopc, hrsv, hsalt, hw224, hlenInit hopc hsalt⟩
    · exact ⟨.init224, hopc, hrsv, hsalt, hw224, hlenInit hopc hsalt⟩
    · exact ⟨.init256S, hopc, hrsv, hsalt, hw224⟩
    · exact ⟨.init224S, hopc, hrsv, hsalt, hw224⟩
  · obtain ⟨hsalt, hw224⟩ := hnoflags (by simp [hopc])
    exact ⟨.update, hopc, hrsv, hsalt, hw224⟩
  · obtain ⟨hsalt, hw224⟩ := hnoflags (by simp [hopc])
    exact ⟨.final, hopc, hrsv, hsalt, hw224, hlen (by simp [hopc])⟩
  · obtain ⟨hsalt, hw224⟩ := hnoflags (by simp [hopc])
    exact ⟨.reset, hopc, hrsv, hsalt, hw224, hlen (by simp [hopc])⟩

/-- Settles O4: the fields of a row are not on the list of R76, and what is not on the list has the fields of a row. -/
theorem reservedHeadersExactly : Obligations.ReservedHeadersExactly := by
  refine fun hdr => ⟨fun hnone => ?_, commandOf_of_reservedHeader⟩
  by_contra hreserved
  obtain ⟨c, hfields⟩ := exists_fieldsSelect_of_not_reservedHeader hreserved
  rw [commandOf_of_fieldsSelect hfields] at hnone
  cases hnone

end Sys2Proof.Proofs

/-! PROOFS of the family other, memory and fetch: which bytes are available at an offset, what a byte string supplied
there decodes to, and how many bytes a command takes. -/

namespace Sys2Proof.Proofs

open Sys2Proof.Machine Sys2Proof.Laws

/-! ## The bytes available at an offset -/

/-- A byte present at an offset lies below `avail`. -/
theorem lt_avail_of_read? {m : Memory} (h : m.wf) {a : Nat} {b : Byte} (hb : m.read? a = some b) : a < m.avail := by
  obtain ⟨c, hfind, -⟩ := Option.map_eq_some_iff.1 hb
  have haddress : c.1 = a := by simpa using List.find?_some hfind
  exact haddress ▸ lt_avail_of_mem h (List.mem_of_find?_eq_some hfind)

/-- Where an offset holds no byte, nothing is available (R62). -/
theorem run_eq_nil_of_read? {m : Memory} (h : m.wf) {a : Nat} (hb : m.read? a = none) : m.run a = [] := by
  rw [run_eq_cons_iff h, hb]

/-- What is available at an offset lies below `avail`. -/
theorem add_length_run_le_avail {m : Memory} (h : m.wf) {a : Nat} (ha : a ≤ m.avail) :
    a + (m.run a).length ≤ m.avail := by
  induction hbytes : m.run a generalizing a with
  | nil => exact ha
  | cons b bytes ih =>
    cases hread : m.read? a with
    | none =>
      rw [run_eq_nil_of_read? h hread] at hbytes
      cases hbytes
    | some b' =>
      rw [run_eq_cons_of_read? h hread] at hbytes
      have hrest := ih (lt_avail_of_read? h hread) (List.cons.inj hbytes).2
      rw [List.length_cons]
      omega

/-- At the end of the stream nothing is available. -/
theorem run_avail {m : Memory} (h : m.wf) : m.run m.avail = [] := by
  have hlen := add_length_run_le_avail h le_rfl
  exact List.length_eq_zero_iff.1 (by omega)

/-- An offset without a byte bounds what is available before it (R62). -/
theorem length_run_le_of_read?_eq_none {m : Memory} (h : m.wf) {a k : Nat} (hk : m.read? (a + k) = none) :
    (m.run a).length ≤ k := by
  induction k generalizing a with
  | zero => exact (congrArg List.length (run_eq_nil_of_read? h hk)).le
  | succ k ih =>
    cases hread : m.read? a with
    | none => simp [run_eq_nil_of_read? h hread]
    | some b =>
      rw [run_eq_cons_of_read? h hread, List.length_cons]
      exact Nat.succ_le_succ (ih (by rwa [Nat.add_right_comm, Nat.add_assoc]))

/-- Bytes present one by one are available together, followed by what stands after them (R62). -/
theorem run_eq_append_of_read? {m : Memory} (h : m.wf) {a : Nat} {bytes : List Byte}
    (hbytes : ∀ k, k < bytes.length → m.read? (a + k) = bytes[k]?) :
    m.run a = bytes ++ m.run (a + bytes.length) := by
  induction bytes generalizing a with
  | nil => rfl
  | cons b bytes ih =>
    have hhead : m.read? a = some b := hbytes 0 (Nat.zero_lt_succ _)
    have htail (k : Nat) (hk : k < bytes.length) : m.read? (a + 1 + k) = bytes[k]? := by
      rw [Nat.add_assoc, Nat.add_comm 1 k]
      exact hbytes (k + 1) (Nat.succ_lt_succ hk)
    rw [run_eq_cons_of_read? h hhead, ih htail, List.length_cons, Nat.add_assoc, Nat.add_comm 1, List.cons_append]

/-! ## Cells of a byte string -/

theorem cellsFrom_append (a : Nat) (p q : List Byte) :
    cellsFrom a (p ++ q) = cellsFrom a p ++ cellsFrom (a + p.length) q := by
  induction p generalizing a with
  | nil => rfl
  | cons b p ih =>
    rw [List.cons_append, cellsFrom_cons, ih, cellsFrom_cons, List.cons_append, List.length_cons, Nat.add_assoc,
      Nat.add_comm 1]

/-- What is available behind the first bytes of a byte string is the others. -/
theorem run_cellsFrom_zero (bytes : List Byte) (a : Nat) : Memory.run (cellsFrom 0 bytes) a = bytes.drop a := by
  obtain hlt | hle := Nat.lt_or_ge bytes.length a
  · have hbelow : ∀ c ∈ cellsFrom 0 bytes, c.1 < a := fun c hc => by
      have := mem_cellsFrom hc
      omega
    rw [← List.append_nil (cellsFrom 0 bytes), run_append_of_lt hbelow, List.drop_eq_nil_of_le hlt.le]
    rfl
  · have hbelow : ∀ c ∈ cellsFrom 0 (bytes.take a), c.1 < a := fun c hc => by
      have := mem_cellsFrom hc
      rw [List.length_take_of_le hle] at this
      omega
    have hrun := run_cellsFrom_append (bytes.drop a) a []
    rw [List.append_nil, Memory.run, List.append_nil] at hrun
    rw [← List.take_append_drop a bytes, cellsFrom_append, run_append_of_lt hbelow, List.length_take_of_le hle,
      Nat.zero_add, hrun, List.take_append_drop]

/-- Bytes put at the end move the end of the stream past them. -/
theorem avail_append_cellsFrom (m : Memory) (bytes : List Byte) :
    Memory.avail (m ++ cellsFrom m.avail bytes) = m.avail + bytes.length := by
  obtain rfl | ⟨init, b, rfl⟩ := List.eq_nil_or_concat bytes
  · rw [cellsFrom_nil, List.append_nil]
    rfl
  · rw [List.concat_eq_append, cellsFrom_append, cellsFrom_cons, cellsFrom_nil, ← List.append_assoc, Memory.avail,
      List.getLast?_concat, List.length_append]
    rfl

theorem avail_cellsFrom_zero (bytes : List Byte) : Memory.avail (cellsFrom 0 bytes) = bytes.length :=
  (avail_append_cellsFrom [] bytes).trans (Nat.zero_add _)

/-! ## Appending at the end -/

/-- Bytes appended at the end stand behind those already there (R50). -/
theorem store_avail {m : Memory} (h : m.wf) (bytes : List Byte) :
    m.store m.avail bytes = m ++ cellsFrom m.avail bytes := by
  have hbelow : m.filter (fun c => c.1 < m.avail) = m :=
    List.filter_eq_self.2 fun c hc => decide_eq_true (lt_avail_of_mem h hc)
  have habove : m.filter (fun c => m.avail + bytes.length ≤ c.1) = [] :=
    List.filter_eq_nil_iff.2 fun c hc => by
      have := lt_avail_of_mem h hc
      simp
      omega
  rw [Memory.store, hbelow, habove, List.append_nil]

/-- Cells appended leave what was available as the start of what is available (R62, R66). -/
theorem run_append_eq_append (m m' : Memory) (a : Nat) : ∃ later, Memory.run (m ++ m') a = m.run a ++ later := by
  induction m generalizing a with
  | nil => exact ⟨_, rfl⟩
  | cons c m ih =>
    obtain ⟨x, b⟩ := c
    rw [List.cons_append, Memory.run, Memory.run]
    split_ifs
    · exact ih a
    · obtain ⟨later, hlater⟩ := ih (a + 1)
      exact ⟨later, by rw [hlater, List.cons_append]⟩
    · exact ⟨[], rfl⟩

/-! ## Fetch -/

/-- The bytes of a packet decode to its command whatever comes after them, and a reserved header stays reserved. -/
theorem decode_append {bytes : List Byte} (later : List Byte) :
    (decode bytes = .reserved → decode (bytes ++ later) = .reserved) ∧
    ∀ i rest, decode bytes = .command i rest → decode (bytes ++ later) = .command i (rest ++ later) := by
  refine ⟨fun h => ?_, fun i rest h => ?_⟩
  · match bytes with
    | b0 :: b1 :: b2 :: b3 :: p =>
      obtain ⟨hnone, -⟩ | ⟨c, -, ⟨-, h'⟩ | ⟨-, h'⟩⟩ := decodeAfterHeader_cases (be32 b0 b1 b2 b3) p
      · exact decode_append_of_reserved hnone (p ++ later)
      · cases h'.symm.trans h
      · cases h'.symm.trans h
    | [] | [_] | [_, _] | [_, _, _] => cases h
  · obtain ⟨hwf, rfl⟩ := eq_encode_of_decode h
    rw [List.append_assoc, decode_encode_append hwf]

theorem encode_length (i : Instr) : (encode i).length = 4 + i.payload.length := by
  rw [encode, List.length_append, be32bytes_length]

/-- Fewer bytes than a header decode to nothing (R62). -/
theorem decode_eq_headerIncomplete_iff (bytes : List Byte) : decode bytes = .headerIncomplete ↔ bytes.length < 4 := by
  match bytes with
  | b0 :: b1 :: b2 :: b3 :: p =>
    have hlong : ¬ (b0 :: b1 :: b2 :: b3 :: p).length < 4 := by simp
    refine iff_of_false (fun h => ?_) hlong
    obtain ⟨-, h'⟩ | ⟨c, -, ⟨-, h'⟩ | ⟨-, h'⟩⟩ := decodeAfterHeader_cases (be32 b0 b1 b2 b3) p <;>
      cases h'.symm.trans h
  | [] | [_] | [_, _] | [_, _, _] => simp [decode]

/-- A command fetched lies within the stream, its whole packet (R62). -/
theorem packet_le_avail {s : State} (hwf : s.cmd.wf) (hpc : s.pc ≤ s.cmd.avail) {i : Instr} {rest : List Byte}
    (h : fetch s = .command i rest) : s.pc + 4 + i.payload.length ≤ s.cmd.avail := by
  have hrun := add_length_run_le_avail hwf hpc
  rw [(eq_encode_of_decode h).2, List.length_append, encode_length] at hrun
  omega

end Sys2Proof.Proofs

/-! PROOFS of the family other, one step: what the engine does with the packet at `PC` (O7, O8, O10, O12), where it has
no step (O13), and what bytes supplied later change (O16). -/

namespace Sys2Proof.Proofs

open Sys2Proof.Machine Sys2Proof.Laws

/-! ## The step by what is fetched (R78) -/

section Fetch
variable {s : State} (herr : s.err = .none)
include herr

theorem step_of_headerIncomplete (h : fetch s = .headerIncomplete) : step s = .fault (noHeader s) := by
  simp [step, (isHalted_eq_false_iff s).2 herr, h]

theorem step_of_payloadIncomplete (h : fetch s = .payloadIncomplete) : step s = .fault .waiting := by
  simp [step, (isHalted_eq_false_iff s).2 herr, h]

theorem step_of_reserved (h : fetch s = .reserved) : step s = .next (raiseFault .illegalCommand s) := by
  simp [step, (isHalted_eq_false_iff s).2 herr, h]

theorem step_of_command {i : Instr} {rest : List Byte} (h : fetch s = .command i rest) : step s = exec i s := by
  simp [step, (isHalted_eq_false_iff s).2 herr, h]

end Fetch

/-- Settles O7: what is fetched was decoded, so it is well-formed, and the step runs it. -/
theorem stepRunsDecodedCommand : Obligations.StepRunsDecodedCommand := fun _ _ _ herr hfetch =>
  ⟨(eq_encode_of_decode hfetch).1, step_of_command herr hfetch⟩

/-- Settles O8: bytes present one by one are available together, and a packet decodes to its command. -/
theorem stepRunsSuppliedPacket : Obligations.StepRunsSuppliedPacket := by
  intro s i herr hwf hiwf hbytes
  refine step_of_command herr (rest := s.cmd.run (s.pc + (encode i).length)) ?_
  rw [fetch, run_eq_append_of_read? hwf hbytes, decode_encode_append hiwf]

/-- A table word that the decoder reads as an instruction is laid out as bytes that decode to it. -/
theorem decode_layoutTableWord {nbits w : Nat} {i : Instr} (h : decodeTableWord nbits w = some i) :
    ∃ rest, decode (layoutTableWord nbits w) = .command i rest := by
  unfold decodeTableWord at h
  split at h
  next i' rest hdecode => exact ⟨rest, Option.some.inj h ▸ hdecode⟩
  next => cases h

/-- Settles O10: the bytes laid out are available at `PC` after the store, and decode to the instruction whatever stands
after them. -/
theorem fetchWordRunsTableInstruction : Obligations.FetchWordRunsTableInstruction := by
  intro nbits w i s herr hword
  obtain ⟨rest, hdecode⟩ := decode_layoutTableWord hword
  have hfetch := (decode_append (Memory.run (s.cmd.filter fun c => s.pc + (layoutTableWord nbits w).length ≤ c.1)
    (s.pc + (layoutTableWord nbits w).length))).2 i rest hdecode
  rw [← run_store] at hfetch
  exact step_of_command (s := s.withFetchWord nbits w) herr hfetch

/-! ## Waiting -/

/-- With a header byte missing there is no header at `PC` (R62). -/
theorem fetch_headerIncomplete_of_missing {s : State} (hwf : s.cmd.wf) {k : Nat} (hk : k < 4)
    (hmissing : s.cmd.read? (s.pc + k) = none) : fetch s = .headerIncomplete :=
  (decode_eq_headerIncomplete_iff _).2 ((length_run_le_of_read?_eq_none hwf hmissing).trans_lt hk)

/-- With a payload byte missing behind a command's header the packet is incomplete (R62). -/
theorem decodeAfterHeader_of_short {hdr : Word} {c : Command} {p : List Byte} (hc : commandOf hdr = some c)
    (hp : p.length < (lenField hdr).toNat) : decodeAfterHeader hdr p = .payloadIncomplete := by
  obtain ⟨hnone, -⟩ | ⟨-, -, ⟨-, h⟩ | ⟨hlen, -⟩⟩ := decodeAfterHeader_cases hdr p
  · cases hnone.symm.trans hc
  · exact h
  · exact absurd hp hlen.not_gt

/-- Settles O12: the bytes available at `PC` end before the missing one. -/
theorem incompletePacketWaits : Obligations.IncompletePacketWaits := by
  refine fun s herr hwf => ⟨fun ⟨k, hk, hmissing⟩ => ?_, fun b0 b1 b2 b3 c h0 h1 h2 h3 hc ⟨k, hk, hmissing⟩ => ?_⟩
  · exact step_of_headerIncomplete herr (fetch_headerIncomplete_of_missing hwf hk hmissing)
  · refine step_of_payloadIncomplete herr ?_
    rw [fetch_of_read? hwf h0 h1 h2 h3]
    exact decodeAfterHeader_of_short hc ((length_run_le_of_read?_eq_none hwf hmissing).trans_lt hk)

/-! ## Runs -/

theorem run_succ_of_fault {s : State} {r : Fault} (h : step s = .fault r) (n : Nat) :
    core.run (n + 1) s = .fault r := by
  simp [Host.Core.run, core, h]

theorem run_succ_of_next {s t : State} (h : step s = .next t) (n : Nat) : core.run (n + 1) s = core.run n t := by
  simp [Host.Core.run, core, h]

/-- Settles O13: `ERR` is looked at before anything else (R170). -/
theorem haltedEngineHasNoStep : Obligations.HaltedEngineHasNoStep := fun _ herr =>
  ⟨step_of_err_ne_none herr, run_succ_of_fault (step_of_err_ne_none herr)⟩

/-! ## Bytes supplied later -/

theorem constructSalted_with_cmd (w : Width) (p : List Byte) (s : State) (m : Memory) :
    constructSalted w p { s with cmd := m } = { constructSalted w p s with cmd := m } := by
  obtain ⟨hlen, h⟩ | ⟨hlen, h⟩ := constructSalted_cases w p s <;>
    obtain ⟨hlen', h'⟩ | ⟨hlen', h'⟩ := constructSalted_cases w p { s with cmd := m }
  · rw [h, h']; rfl
  · exact absurd hlen' hlen
  · exact absurd hlen hlen'
  · rw [h, h']; rfl

theorem whenConstructed_with_cmd {s t : State} {f g : Digest → State} (h : whenConstructed s f = .next t) (m : Memory)
    (hfg : ∀ d, g d = { f d with cmd := m }) : whenConstructed { s with cmd := m } g = .next { t with cmd := m } := by
  obtain ⟨hd, rfl⟩ | ⟨d, hd, rfl⟩ := (whenConstructed_next_iff _ _ _).1 h
  · exact whenConstructed_of_none (s := { s with cmd := m }) hd g
  · exact hfg d ▸ whenConstructed_of_some (s := { s with cmd := m }) hd g

/-- A command reads nothing of `CMD` but its operand, which it has (R66). -/
theorem exec_with_cmd {i : Instr} {s t : State} (h : exec i s = .next t) (m : Memory) :
    exec i { s with cmd := m } = .next { t with cmd := m } := by
  cases i with
  | init256 | init224 => cases h; rfl
  | init256S p | init224S p => cases h; exact congrArg _ (constructSalted_with_cmd _ p s m)
  | update p => exact whenConstructed_with_cmd h m fun _ => rfl
  | final => exact whenConstructed_with_cmd h m fun _ => rfl
  | reset => exact whenConstructed_with_cmd h m fun _ => rfl

/-- Bytes supplied stand behind those available at `PC` (R50). -/
theorem fetch_supply {s : State} (hwf : s.cmd.wf) (bytes : List Byte) :
    ∃ later, fetch (s.supply bytes) = decode (s.cmd.run s.pc ++ later) := by
  obtain ⟨later, hlater⟩ := run_append_eq_append s.cmd (cellsFrom s.cmd.avail bytes) s.pc
  exact ⟨later, by rw [fetch, supply_cmd, store_avail hwf, supply_pc, hlater]⟩

/-- Settles O16: the step reads the packet it fetched, which stays where it is, and nothing behind it. -/
theorem laterBytesChangeNothing : Obligations.LaterBytesChangeNothing := by
  intro s t bytes hwf hstep
  obtain ⟨later, hfetch⟩ := fetch_supply hwf bytes
  obtain ⟨hreserved, hcommand⟩ := decode_append (bytes := s.cmd.run s.pc) later
  obtain ⟨herr, ⟨hnow, rfl⟩ | ⟨i, rest, hnow, hexec⟩⟩ := (step_next_iff s t).1 hstep
  · exact step_of_reserved (s := s.supply bytes) herr (hfetch.trans (hreserved hnow))
  · obtain ⟨-, hcmd, -⟩ := stepIsMonotone s t hstep
    rw [step_of_command (s := s.supply bytes) herr (hfetch.trans (hcommand i rest hnow)), State.supply,
      exec_with_cmd hexec, State.supply, hcmd]

end Sys2Proof.Proofs

/-! PROOFS of the family other, sound states and runs: what every step keeps (O20, O21, O22, O19), and how runs end
(O17, O18). -/

namespace Sys2Proof.Proofs

open Sys2Proof.Machine Sys2Proof.Laws

/-! ## Sound Digest States -/

theorem fresh_inv (w : Width) (salt : Vector Word 4) : (Digest.fresh w salt).Inv :=
  ⟨Nat.zero_lt_succ 63, rfl, rfl⟩

/-- Each block compressed moves the counter by 512 (R24, R102). -/
theorem afterStream_t (d : Digest) (stream : List Byte) :
    (afterStream d stream).t = d.t + BitVec.ofNat 64 (512 * (stream.length / 64)) := rfl

/-- Absorbing keeps a Digest State sound (R24, R25, R27). -/
theorem absorb_inv {d : Digest} (h : d.Inv) (p : List Byte) : (absorb d p).Inv := by
  obtain ⟨hnx, hnullt, ht⟩ := h
  refine ⟨?_, (absorb_nullt p d).trans hnullt, ?_⟩
  · rw [absorb_nx hnx]
    exact Nat.mod_lt _ (by decide)
  · rw [absorb_eq_afterStream hnx, afterStream_t, BitVec.toNat_add, BitVec.toNat_ofNat]
    omega

/-- A command leaves a sound Digest State if it finds one (R24, R25, R27). -/
theorem exec_keeps_digest_inv {i : Instr} {s t : State} (h : exec i s = .next t)
    (hs : ∀ d, s.digest = some d → d.Inv) : ∀ d, t.digest = some d → d.Inv := by
  obtain ⟨e, -, rfl⟩ | ⟨w, salt, rfl⟩ | ⟨d, hd, rfl⟩ | ⟨d, -, rfl⟩ | ⟨d, -, rfl⟩ := exec_cases h
  · exact hs
  · rintro _ ⟨⟩
    exact fresh_inv w salt
  · rintro _ ⟨⟩
    exact absorb_inv (hs d hd) _
  · exact hs
  · rintro _ ⟨⟩
    exact fresh_inv d.w d.s

/-! ## Records -/

/-- A record has 28 or 32 bytes, by the width (R21, R33). -/
theorem digestRecord_length (d : Digest) : (digestRecord d).length = 28 ∨ (digestRecord d).length = 32 := by
  rw [digestRecord, serialise_length]
  cases d.w with
  | w256 => exact .inr rfl
  | w224 => exact .inl rfl

/-- A command appends no record but a digest (R33). -/
theorem exec_keeps_record_lengths {i : Instr} {s t : State} (h : exec i s = .next t)
    (hs : ∀ r ∈ s.out, r.length = 28 ∨ r.length = 32) : ∀ r ∈ t.out, r.length = 28 ∨ r.length = 32 := by
  obtain ⟨e, -, rfl⟩ | ⟨w, salt, rfl⟩ | ⟨d, -, rfl⟩ | ⟨d, -, rfl⟩ | ⟨d, -, rfl⟩ := exec_cases h
  case inr.inr.inr.inl =>
    intro r hr
    obtain hr | hr := List.mem_append.1 hr
    · exact hs r hr
    · exact List.mem_singleton.1 hr ▸ digestRecord_length d
  all_goals exact hs

/-! ## Sound states -/

/-- Settles O21: the Digest State and the records by the command executed; `PC` because the whole packet was there. -/
theorem stepKeepsSoundState : Obligations.StepKeepsSoundState := by
  rintro s t ⟨hdigest, hout, hwf, hpc⟩ hstep
  obtain ⟨-, ⟨-, rfl⟩ | ⟨i, rest, hfetch, hexec⟩⟩ := (step_next_iff s t).1 hstep
  · exact ⟨hdigest, hout, hwf, hpc⟩
  · refine ⟨exec_keeps_digest_inv hexec hdigest, exec_keeps_record_lengths hexec hout, ?_⟩
    obtain ⟨e, -, rfl⟩ | hdone := exec_faults_or_completes hexec
    · exact ⟨hwf, hpc⟩
    · rw [hdone.cmd, hdone.pc]
      exact ⟨hwf, packet_le_avail hwf hpc hfetch⟩

/-- Settles O20: nothing is there that could be unsound. -/
theorem resetStateIsSound : Obligations.ResetStateIsSound :=
  ⟨fun _ hd => absurd hd (by simp), fun _ hr => absurd hr List.not_mem_nil, reset_cmd_wf, Nat.le_refl 0⟩

/-- Settles O19: the reset state field by field, and an empty `CMD` holds no byte (R180). -/
theorem hardwareResetState : Obligations.HardwareResetState := fun s =>
  ⟨hardwareReset_eq s, rfl, rfl, rfl, rfl, rfl, fun _ => rfl⟩

/-- Settles O22: bytes supplied are put at the end of the stream, which moves away from `PC` (R50). -/
theorem hostEventsKeepSoundState : Obligations.HostEventsKeepSoundState := by
  rintro s bytes ⟨hdigest, hout, hwf, hpc⟩
  refine ⟨⟨hdigest, hout, store_wf hwf _ _, ?_⟩, resetStateIsSound⟩
  rw [supply_cmd, store_avail hwf, avail_append_cellsFrom]
  exact hpc.trans (Nat.le_add_right _ _)

/-! ## Ends of a run (R188) -/

theorem fetch_headerIncomplete_of_avail {s : State} (hwf : s.cmd.wf) (hpc : s.pc = s.cmd.avail) :
    fetch s = .headerIncomplete := by
  rw [fetch, hpc, run_avail hwf]
  rfl

/-- At a sound state's `PC` there is no header: the stream is used up there, or the engine waits. -/
theorem noHeader_of_le {s : State} (hpc : s.pc ≤ s.cmd.avail) :
    (s.pc = s.cmd.avail ∧ noHeader s = .endOfStream) ∨ (s.pc < s.cmd.avail ∧ noHeader s = .waiting) := by
  obtain heq | hlt := hpc.eq_or_lt
  · exact .inl ⟨heq, if_pos heq.ge⟩
  · exact .inr ⟨hlt, if_neg hlt.not_ge⟩

/-- The four outcomes of a step from a sound state: one for each end of a run, and a next state otherwise (R188). -/
theorem step_outcomes {s : State} (h : s.Inv) :
    (s.EndsFinal ∧ ¬ s.EndsFaulted ∧ ¬ s.EndsStuck ∧ step s = .fault .endOfStream) ∨
    (¬ s.EndsFinal ∧ s.EndsFaulted ∧ ¬ s.EndsStuck ∧ step s = .fault .halted) ∨
    (¬ s.EndsFinal ∧ ¬ s.EndsFaulted ∧ s.EndsStuck ∧ step s = .fault .waiting) ∨
    (¬ s.EndsFinal ∧ ¬ s.EndsFaulted ∧ ¬ s.EndsStuck ∧ ∃ t, step s = .next t) := by
  obtain ⟨-, -, hwf, hpc⟩ := h
  by_cases herr : s.err = .none
  case neg =>
    exact .inr (.inl ⟨fun ⟨hnone, _⟩ => herr hnone, herr, fun ⟨hnone, _⟩ => herr hnone, step_of_err_ne_none herr⟩)
  have hnotFaulted : ¬ s.EndsFaulted := fun h => h herr
  have notFinal (hfetch : fetch s ≠ .headerIncomplete) : ¬ s.EndsFinal := fun ⟨_, hend⟩ =>
    hfetch (fetch_headerIncomplete_of_avail hwf hend)
  have notStuck (hheader : fetch s ≠ .headerIncomplete) (hpayload : fetch s ≠ .payloadIncomplete) : ¬ s.EndsStuck :=
    fun ⟨_, _, hincomplete⟩ => hincomplete.elim hheader hpayload
  cases hfetch : fetch s with
  | headerIncomplete =>
    have hstep := step_of_headerIncomplete herr hfetch
    obtain ⟨heq, hwhy⟩ | ⟨hlt, hwhy⟩ := noHeader_of_le hpc <;> rw [hwhy] at hstep
    · exact .inl ⟨⟨herr, heq⟩, hnotFaulted, fun ⟨_, hlt, _⟩ => hlt.ne heq, hstep⟩
    · exact .inr (.inr (.inl ⟨fun ⟨_, hend⟩ => hlt.ne hend, hnotFaulted, ⟨herr, hlt, .inl hfetch⟩, hstep⟩))
  | payloadIncomplete =>
    have hfinal : ¬ s.EndsFinal := notFinal (by simp [hfetch])
    have hlt : s.pc < s.cmd.avail := hpc.lt_of_ne fun heq => hfinal ⟨herr, heq⟩
    exact .inr (.inr (.inl ⟨hfinal, hnotFaulted, ⟨herr, hlt, .inr hfetch⟩, step_of_payloadIncomplete herr hfetch⟩))
  | reserved =>
    exact .inr (.inr (.inr ⟨notFinal (by simp [hfetch]), hnotFaulted, notStuck (by simp [hfetch]) (by simp [hfetch]),
      _, step_of_reserved herr hfetch⟩))
  | command i rest =>
    obtain ⟨t, hexec⟩ := exec_is_next i s
    exact .inr (.inr (.inr ⟨notFinal (by simp [hfetch]), hnotFaulted, notStuck (by simp [hfetch]) (by simp [hfetch]),
      t, (step_of_command herr hfetch).trans hexec⟩))

/-- Settles O17: the outcomes exclude each other. -/
theorem runEndsInExactlyOneWay : Obligations.RunEndsInExactlyOneWay := by
  intro s hs
  obtain ⟨hfinal, hfaulted, hstuck, hstep⟩ | ⟨hfinal, hfaulted, hstuck, hstep⟩ | ⟨hfinal, hfaulted, hstuck, hstep⟩ |
    ⟨hfinal, hfaulted, hstuck, t, hstep⟩ := step_outcomes hs <;>
  simp [hfinal, hfaulted, hstuck, hstep]

/-- A step from a sound state takes a fault, or uses up at least a header of the bytes left (R188). -/
theorem step_halts_or_advances {s t : State} (hs : s.Inv) (h : step s = .next t) :
    t.err ≠ .none ∨ t.cmd.avail - t.pc + 4 ≤ s.cmd.avail - s.pc := by
  obtain ⟨-, -, hwf, hpc⟩ := hs
  obtain ⟨-, ⟨e, he, rfl⟩ | ⟨i, rest, hfetch, hdone⟩⟩ := step_faults_or_completes h
  · exact .inl he
  · have hpacket := packet_le_avail hwf hpc hfetch
    rw [hdone.cmd, hdone.pc]
    omega

/-- Where less than a header is left there is no step (R62, R188). -/
theorem step_faults_of_short {s : State} (hs : s.Inv) (hshort : s.cmd.avail - s.pc < 4) : ∃ r, step s = .fault r := by
  obtain ⟨-, -, hwf, hpc⟩ := hs
  by_cases herr : s.err = .none
  · have hrun := add_length_run_le_avail hwf hpc
    have hfetch : fetch s = .headerIncomplete := (decode_eq_headerIncomplete_iff _).2 (by omega)
    exact ⟨_, step_of_headerIncomplete herr hfetch⟩
  · exact ⟨_, step_of_err_ne_none herr⟩

/-- A run from a sound state ends within one step more than the headers that the bytes left can hold (R188). -/
theorem run_ends {n : Nat} {s : State} (hs : s.Inv) (hn : (s.cmd.avail - s.pc) / 4 ≤ n) :
    ∃ r, core.run (n + 1) s = .fault r := by
  induction n generalizing s with
  | zero =>
    obtain ⟨r, hstep⟩ := step_faults_of_short hs (by omega)
    exact ⟨r, run_succ_of_fault hstep 0⟩
  | succ n ih =>
    cases hstep : step s with
    | fault r => exact ⟨r, run_succ_of_fault hstep _⟩
    | refused r =>
      obtain ⟨-, -, -, hnotRefused⟩ := runEndsInExactlyOneWay s hs
      exact absurd hstep (hnotRefused r)
    | next t =>
      rw [run_succ_of_next hstep]
      obtain hhalted | hadvanced := step_halts_or_advances hs hstep
      · exact ⟨_, run_succ_of_fault (step_of_err_ne_none hhalted) n⟩
      · exact ih (stepKeepsSoundState s t hs hstep) (by omega)

/-- Settles O18: by the bytes left, of which each step uses up a header or is the last. -/
theorem everyRunEnds : Obligations.EveryRunEnds := fun _ hs => run_ends hs le_rfl

end Sys2Proof.Proofs

/-! PROOFS of the family other, the step on a byte string (O9): the lines of R78 one by one. -/

namespace Sys2Proof.Proofs

open Sys2Proof.Machine Sys2Proof.Laws

/-! ## The bytes of a stream at an offset -/

theorem drop_eq_getD_cons {stream : List Byte} {a : Nat} (h : a < stream.length) :
    stream.drop a = stream.getD a 0 :: stream.drop (a + 1) := by
  rw [List.drop_eq_getElem_cons h, List.getElem_eq_getD 0]

/-- Four bytes left at an offset are the header that the decoder reads there (R78). -/
theorem decode_drop {stream : List Byte} {a : Nat} (h : a + 4 ≤ stream.length) :
    decode (stream.drop a) =
      decodeAfterHeader (be32 (stream.getD a 0) (stream.getD (a + 1) 0) (stream.getD (a + 2) 0) (stream.getD (a + 3) 0))
        (stream.drop (a + 4)) := by
  rw [drop_eq_getD_cons (by omega), drop_eq_getD_cons (by omega), drop_eq_getD_cons (by omega),
    drop_eq_getD_cons (by omega), decode]

/-! ## The lines that raise a fault -/

/-- The two lines of R78 that check a command before its rule is executed are checks of the rule itself. -/
theorem exec_withPayload_eq (c : Command) (p : List Byte) (s : State) :
    exec (c.withPayload p) s =
      if c ∈ [Command.update, .final, .reset] ∧ s.cfg = 0 then .next { s with err := .notConstructed }
      else if c ∈ [Command.init256S, .init224S] ∧ p.length ≠ 16 then .next { s with err := .invalidSaltLength }
      else exec (c.withPayload p) s := by
  split_ifs with hconstructed hsalt
  · obtain ⟨hc, hcfg⟩ := hconstructed
    simp only [List.mem_cons, List.not_mem_nil, or_false] at hc
    obtain rfl | rfl | rfl := hc
    · exact exec_update_of_cfg_eq_zero hcfg p
    · exact exec_final_of_cfg_eq_zero hcfg
    · exact exec_reset_of_cfg_eq_zero hcfg
  · obtain ⟨hc, hlen⟩ := hsalt
    simp only [List.mem_cons, List.not_mem_nil, or_false] at hc
    obtain rfl | rfl := hc
    · exact exec_init256S_of_length_ne hlen s
    · exact exec_init224S_of_length_ne hlen s
  · rfl

/-! ## The procedure -/

/-- The lines of R78 behind a command's header: wait for the payload, or execute with it. -/
theorem step_of_command_header {s : State} {hdr : Word} {c : Command} {bytes : List Byte} (herr : s.err = .none)
    (hfetch : fetch s = decodeAfterHeader hdr bytes) (hc : commandOf hdr = some c) :
    step s = if bytes.length < (lenField hdr).toNat then .fault .waiting
      else exec (c.withPayload (bytes.take (lenField hdr).toNat)) s := by
  split_ifs with hshort
  · exact step_of_payloadIncomplete herr (hfetch.trans (decodeAfterHeader_of_short hc hshort))
  · refine step_of_command herr (rest := bytes.drop (lenField hdr).toNat) (hfetch.trans ?_)
    simp [decodeAfterHeader, hc, hshort]

/-- Settles O9: the lines in order; the bytes at `PC` are the stream's, and so is the header read from them. -/
theorem stepFollowsDecodeProcedure : Obligations.StepFollowsDecodeProcedure := by
  intro stream s hcmd
  have hfetch : fetch s = decode (stream.drop s.pc) := by rw [fetch, hcmd, run_cellsFrom_zero]
  have havail : s.cmd.avail = stream.length := by rw [hcmd, avail_cellsFrom_zero]
  unfold stepOnStream
  dsimp only
  by_cases herr : s.err = .none
  case neg => rw [if_pos herr, step_of_err_ne_none herr]
  rw [if_neg (not_not_intro herr)]
  by_cases hheader : stream.length < s.pc + 4
  case pos =>
    have hshort : (stream.drop s.pc).length < 4 := by
      rw [List.length_drop]
      omega
    rw [if_pos hheader, step_of_headerIncomplete herr (hfetch.trans ((decode_eq_headerIncomplete_iff _).2 hshort)),
      noHeader, havail]
  rw [if_neg hheader]
  rw [decode_drop (Nat.not_lt.1 hheader)] at hfetch
  generalize be32 (stream.getD s.pc 0) (stream.getD (s.pc + 1) 0) (stream.getD (s.pc + 2) 0) (stream.getD (s.pc + 3) 0)
    = hdr at hfetch ⊢
  cases hrow : commandRows.find? (fun row => row.selects hdr) with
  | none =>
    have hnone : commandOf hdr = none := congrArg (Option.map CommandRow.command) hrow
    rw [decodeAfterHeader, hnone] at hfetch
    exact step_of_reserved herr hfetch
  | some row =>
    have hsome : commandOf hdr = some row.command := congrArg (Option.map CommandRow.command) hrow
    have hpayload : (stream.drop (s.pc + 4)).length < (lenField hdr).toNat ↔
        stream.length < s.pc + 4 + (lenField hdr).toNat := by
      rw [List.length_drop]
      omega
    rw [step_of_command_header herr hfetch hsome]
    simp only [hpayload]
    by_cases hwait : stream.length < s.pc + 4 + (lenField hdr).toNat
    · rw [if_pos hwait, if_pos hwait]
    · have hlen : ((stream.drop (s.pc + 4)).take (lenField hdr).toNat).length = (lenField hdr).toNat :=
        List.length_take_of_le (Nat.not_lt.1 (mt hpayload.1 hwait))
      have hrule := exec_withPayload_eq row.command ((stream.drop (s.pc + 4)).take (lenField hdr).toNat) s
      rw [hlen] at hrule
      rw [if_neg hwait, if_neg hwait]
      exact hrule

end Sys2Proof.Proofs

/-! PROOFS of the family other, words and blocks: word arithmetic (O35), byte order (O36), G operations on disjoint
words (O38), the permutations (O39) and `absorb` in closed form (O31). -/

namespace Sys2Proof.Proofs

open Sys2Proof.Machine Sys2Proof.Laws

/-! ## Words -/

/-- A right rotation moves bit `(i + n) mod 32` to place `i` (R10). -/
theorem rotr32_getLsbD (x : Word) {n i : Nat} (hn : n < 32) (hi : i < 32) :
    (rotr32 x n).getLsbD i = x.getLsbD ((i + n) % 32) := by
  rw [rotr32, BitVec.getLsbD_rotateRight, Nat.mod_eq_of_lt hn, Bool.cond_decide]
  obtain hlow | hhigh := Nat.lt_or_ge i (32 - n)
  · rw [if_pos hlow, Nat.mod_eq_of_lt (by omega), Nat.add_comm]
  · have hwrap : (i + n) % 32 = i - (32 - n) := by omega
    rw [if_neg hhigh.not_gt, decide_eq_true hi, Bool.true_and, hwrap]

/-- Settles O35: addition and rotation by their values, rotation bit by bit as well. -/
theorem wordArithmeticIsModular : Obligations.WordArithmeticIsModular := fun x y _ =>
  ⟨word_add_toNat x y, fun _ hn => ⟨rotr32_toNat x hn, fun _ => rotr32_getLsbD x hn⟩⟩

/-! ## Byte order -/

theorem parseBlock_getElem (block : List Byte) (k : Fin 16) : (parseBlock block)[k] = wordAt block (4 * k.val) :=
  Vector.getElem_ofFn k.isLt

theorem be32bytes_toNat (w : Word) :
    (be32bytes w).map BitVec.toNat = (List.range 4).map fun j => w.toNat / 2 ^ (24 - 8 * j) % 256 := by
  refine List.ext_getElem rfl fun j hj _ => ?_
  have hbyte := be32bytes_getD_toNat w (j := j) (by simpa using hj)
  rw [List.getD_eq_getElem _ _ (by simpa using hj)] at hbyte
  simpa using hbyte

/-- The eight bytes of a 64-bit value are the base-256 digits of its value (R10, R55). -/
theorem be64bytes_toNat (x : Counter) :
    (be64bytes x).map BitVec.toNat = (List.range 8).map fun i => x.toNat / 2 ^ (56 - 8 * i) % 256 := by
  have hhi : (hi32 x).toNat = x.toNat / 2 ^ 32 % 2 ^ 32 := by
    rw [hi32, BitVec.extractLsb'_toNat, Nat.shiftRight_eq_div_pow]
  have hlo : (lo32 x).toNat = x.toNat % 2 ^ 32 := by
    rw [lo32, BitVec.extractLsb'_toNat, Nat.shiftRight_zero]
  rw [be64bytes, List.map_append, be32bytes_toNat, be32bytes_toNat, hhi, hlo]
  simp only [List.range, List.range.loop, List.map_cons, List.map_nil, List.cons_append, List.nil_append,
    List.cons.injEq, and_true]
  omega

/-- Settles O36: words from bytes, bytes from words, and the eight bytes of a length from its two halves. -/
theorem bigEndianConversions : Obligations.BigEndianConversions := by
  refine ⟨fun b0 b1 b2 b3 => ⟨be32_toNat b0 b1 b2 b3, be32bytes_be32 b0 b1 b2 b3⟩, fun block k => ?_, be64bytes_toNat⟩
  rw [parseBlock_getElem, wordAt, be32_toNat]

/-! ## Disjoint G operations -/

section Disjoint
variable (m : Vector Word 16) (p : Fin 10) (g : Fin 8) {ia ib ic id : Fin 16} {v v' : Vector Word 16}

/-- What a G operation leaves in a word depends on its four words and that word (R108). -/
theorem applyG_getElem_congr {k : Fin 16} (hquad : ∀ i ∈ [ia, ib, ic, id], v[i] = v'[i]) (hk : v[k] = v'[k]) :
    (applyG m p g ia ib ic id v)[k] = (applyG m p g ia ib ic id v')[k] := by
  simp only [List.forall_mem_cons, List.not_mem_nil, false_implies, implies_true, and_true] at hquad
  obtain ⟨ha, hb, hc, hd⟩ := hquad
  simp only [applyG_eq_set, mixed, ha, hb, hc, hd, getElem_set_fin, hk]

/-- A G operation leaves every word but its four (R108). -/
theorem applyG_getElem_of_not_mem {k : Fin 16} (hk : k ∉ [ia, ib, ic, id]) :
    (applyG m p g ia ib ic id v)[k] = v[k] := by
  simp only [List.mem_cons, List.not_mem_nil, or_false, not_or] at hk
  obtain ⟨ha, hb, hc, hd⟩ := hk
  exact applyG_getElem_of_ne m v p g ha hb hc hd

end Disjoint

/-- At a word that the second operation does not write, the order of two operations on disjoint words does not
show (R113). -/
theorem applyG_applyG_getElem {m v : Vector Word 16} {p : Fin 10} {g g' : Fin 8} {ia ib ic id ja jb jc jd k : Fin 16}
    (hdisjoint : ∀ i ∈ [ia, ib, ic, id], i ∉ [ja, jb, jc, jd]) (hk : k ∉ [ja, jb, jc, jd]) :
    (applyG m p g ia ib ic id (applyG m p g' ja jb jc jd v))[k] =
      (applyG m p g' ja jb jc jd (applyG m p g ia ib ic id v))[k] :=
  calc
    _ = (applyG m p g ia ib ic id v)[k] :=
      applyG_getElem_congr m p g (fun i hi => applyG_getElem_of_not_mem m p g' (hdisjoint i hi))
        (applyG_getElem_of_not_mem m p g' hk)
    _ = _ := (applyG_getElem_of_not_mem m p g' hk).symm

/-- Settles O38: each word is outside one of the two operations. -/
theorem disjointOperationsCommute : Obligations.DisjointOperationsCommute := by
  intro m v p g g' ia ib ic id ja jb jc jd hnodup
  obtain ⟨-, -, hne⟩ := List.nodup_append.1 (show ([ia, ib, ic, id] ++ [ja, jb, jc, jd]).Nodup from hnodup)
  refine Vector.ext fun k hk => ?_
  by_cases hmem : (⟨k, hk⟩ : Fin 16) ∈ [ja, jb, jc, jd]
  · exact (applyG_applyG_getElem (k := ⟨k, hk⟩) (fun j hj hi => hne j hi j hj rfl) fun hi => hne _ hi _ hmem rfl).symm
  · exact applyG_applyG_getElem (k := ⟨k, hk⟩) (fun i hi hj => hne i hi i hj rfl) hmem

/-! ## The permutations -/

/-- Settles O39: ten rows of sixteen entries, compared with the indices. -/
theorem permutationRowsArePermutations : Obligations.PermutationRowsArePermutations := by
  unfold Obligations.PermutationRowsArePermutations
  decide

/-! ## The closed form of `absorb` -/

/-- Settles O31: the stream is the buffer and the input, and its blocks are counted by its length (R92). -/
theorem absorbClosedForm : Obligations.AbsorbClosedForm := by
  intro d p hnx stream k
  have hlt : d.nx < 64 := Nat.lt_succ_of_le hnx
  have hk : k = stream.length / 64 := by rw [List.length_append, ← Digest.nx]
  refine ⟨?_, absorb_nx hlt p⟩
  rw [absorb_eq_afterStream hlt, hk]
  rfl

end Sys2Proof.Proofs

/-! PROOFS of the family other, the padding of FINAL: the counter at each compression (O45) and the table of R128 (O43).
For each branch of `pad` one lemma says the whole working copy it leaves. -/

namespace Sys2Proof.Proofs

open Sys2Proof.Machine Sys2Proof.Laws

/-! ## The working copy after each padding branch -/

theorem padBytes_take {n k : Nat} (hk : k = n + 1) (hn : n ≤ 63) : padBytes.take k = 0x80 :: List.replicate n 0 := by
  rw [padBytes, hk, List.take_succ_cons, List.take_replicate, Nat.min_eq_left hn]

theorem discount_nx (d : Digest) (n : Nat) : (discount d n).nx = d.nx := rfl

/-- The branch of the exact fit buffers the domain byte (R123). -/
theorem pad_of_eq {d : Digest} (h : d.nx = 55) :
    pad d = { discount d 8 with buf := d.buf ++ [d.w.domainByte] } := by
  rw [pad, if_pos h, padExact, absorb_of_short]
  · rfl
  · rw [discount_nx, h, List.length_singleton]
    decide

/-- The branch of one block buffers the padding, and skips the counter if the block holds no message byte (R124). -/
theorem pad_of_lt {d : Digest} (h : d.nx < 55) :
    pad d =
      { d with
        t := d.t - BitVec.ofNat 64 (440 - 8 * d.nx) - BitVec.ofNat 64 8
        nullt := d.nullt || decide (d.nx = 0)
        buf := d.buf ++ (0x80 :: List.replicate (54 - d.nx) 0 ++ [d.w.terminatorByte]) } := by
  have hskip : (if d.nx = 0 then skipCounter d else d) = { d with nullt := d.nullt || decide (d.nx = 0) } := by
    split_ifs with hempty <;> simp [hempty, skipCounter]
  have htake : padBytes.take (55 - d.nx) = 0x80 :: List.replicate (54 - d.nx) 0 :=
    padBytes_take (by omega) (by omega)
  rw [pad, if_neg h.ne, if_pos h, padOneBlock]
  rw [hskip, htake, absorb_w, discount_w, ← absorb_append, absorb_of_short]
  · rfl
  · show d.nx + _ < 64
    simp
    omega

/-- The branch of two blocks compresses the block with the message's tail, and buffers the rest of the padding with the
counter skipped (R125). -/
theorem pad_of_gt {d : Digest} (h : 55 < d.nx) (hnx : d.nx ≤ 63) :
    pad d =
      { (discount d (512 - 8 * d.nx)).compressBlock (d.buf ++ (0x80 :: List.replicate (63 - d.nx) 0)) with
        t := d.t - BitVec.ofNat 64 (512 - 8 * d.nx) + 512 - BitVec.ofNat 64 440 - BitVec.ofNat 64 8
        nullt := true
        buf := List.replicate 55 0 ++ [d.w.terminatorByte] } := by
  have htake : padBytes.take (64 - d.nx) = 0x80 :: List.replicate (63 - d.nx) 0 :=
    padBytes_take (by omega) (by omega)
  have hlt : (discount d (512 - 8 * d.nx)).nx < 64 := Nat.lt_succ_of_le hnx
  have hfirst : absorb (discount d (512 - 8 * d.nx)) (0x80 :: List.replicate (63 - d.nx) 0) =
      (discount d (512 - 8 * d.nx)).compressBlock (d.buf ++ (0x80 :: List.replicate (63 - d.nx) 0)) := by
    refine absorb_of_completes hlt ?_
    rw [discount_nx, List.length_cons, List.length_replicate]
    omega
  rw [pad, if_neg h.ne', if_neg h.le.not_gt, padTwoBlocks]
  dsimp only
  rw [htake, hfirst, absorb_of_short (p := List.replicate 55 0), absorb_of_short]
  · rfl
  all_goals simp [Digest.nx]

/-! ## Counter bookkeeping -/

/-- Every branch leaves 56 bytes in the copy's buffer (R129). -/
theorem pad_nx {d : Digest} (h : d.nx ≤ 63) : (pad d).nx = 56 := by
  obtain hlt | heq | hgt := Nat.lt_trichotomy d.nx 55
  · rw [pad_of_lt hlt]
    simp [Digest.nx] at hlt ⊢
    omega
  · rw [pad_of_eq heq]
    simp [Digest.nx] at heq ⊢
    omega
  · rw [pad_of_gt hgt h]
    rfl

/-- At the last compression the counter, before its own increment, is 512 short of the message length (R129). -/
theorem discount_pad_t {d : Digest} (h : d.nx ≤ 63) : (discount (pad d) 64).t = messageBits d - 512 := by
  obtain hlt | heq | hgt := Nat.lt_trichotomy d.nx 55
  · rw [pad_of_lt hlt, discount_t, messageBits]
    bv_omega
  · rw [pad_of_eq heq, discount_t, discount_t, messageBits, heq]
    bv_omega
  · rw [pad_of_gt hgt h, discount_t, messageBits]
    bv_omega

/-- At the compression of the message's tail likewise (R129). -/
theorem discount_tail_t {d : Digest} (h : d.nx ≤ 63) :
    d.t - BitVec.ofNat 64 (512 - 8 * d.nx) = messageBits d - 512 := by
  rw [messageBits]
  bv_omega

/-- The length field completes the last block (R126). -/
theorem finished_eq {d : Digest} (h : d.nx ≤ 63) :
    finished d = (discount (pad d) 64).compressBlock ((pad d).buf ++ be64bytes (messageBits d)) := by
  have hnx : (discount (pad d) 64).nx = 56 := pad_nx h
  rw [finished, absorb_of_completes (by omega) (by rw [hnx, be64bytes_length]), discount_buf]

/-- Settles O45: each branch by the working copy it leaves. -/
theorem finalCounterBookkeeping : Obligations.FinalCounterBookkeeping := by
  intro d h
  refine ⟨pad_nx h, ?last, fun _ => ?tail, ?finished, ?buf⟩
  case last => rw [discount_pad_t h, BitVec.sub_add_cancel]
  case tail => rw [discount_t, discount_tail_t h, BitVec.sub_add_cancel]
  case finished => rw [finished_eq h, compressBlock_t, discount_pad_t h, BitVec.sub_add_cancel]
  case buf => rw [finished_eq h, compressBlock_buf]

/-! ## The table of R128 -/

section Table
variable {d : Digest}

/-- The rows of the table for at most 54 buffered bytes are one row, the first of them with the counter skipped. -/
theorem finalBlocks_of_lt (h : d.nx < 55) :
    finalBlocks d =
      [(d.buf ++ (0x80 :: List.replicate (54 - d.nx) 0 ++ [d.w.terminatorByte]) ++ be64bytes (messageBits d),
        messageBits d, decide (d.nx = 0))] := by
  unfold Digest.nx at h
  unfold finalBlocks messageBits Digest.nx
  dsimp only
  split_ifs with hempty
  · rw [List.length_eq_zero_iff.1 hempty]
    rfl
  · simp [hempty]
  · omega
  · omega

theorem finalBlocks_of_eq (h : d.nx = 55) :
    finalBlocks d = [(d.buf ++ [d.w.domainByte] ++ be64bytes (messageBits d), messageBits d, false)] := by
  unfold Digest.nx at h
  simp [finalBlocks, messageBits, Digest.nx, h]

theorem finalBlocks_of_gt (h : 55 < d.nx) :
    finalBlocks d =
      [(d.buf ++ (0x80 :: List.replicate (63 - d.nx) 0), messageBits d, false),
       (List.replicate 55 0 ++ [d.w.terminatorByte] ++ be64bytes (messageBits d), messageBits d, true)] := by
  unfold Digest.nx at h
  unfold finalBlocks messageBits Digest.nx
  dsimp only
  rw [if_neg (by omega), if_neg (by omega), if_neg (by omega), List.append_assoc d.buf]
  rfl

theorem compressChain_cons (s : Vector Word 4) (h : Vector Word 8) (b : List Byte × Counter × Bool)
    (bs : List (List Byte × Counter × Bool)) :
    compressChain s h (b :: bs) = compressChain s (compress h s (b.2.1 - 512) b.2.2 b.1).1 bs := rfl

/-- The last chain value of the working copy: one compression from what `pad` leaves (R126). -/
theorem finished_h (h : d.nx ≤ 63) :
    (finished d).h =
      compressChain (pad d).s (pad d).h [((pad d).buf ++ be64bytes (messageBits d), messageBits d, (pad d).nullt)] := by
  rw [finished_eq h, compressBlock_h, discount_pad_t h]
  rfl

/-- FINAL compresses the blocks of the table of R128. -/
theorem finished_h_eq_compressChain (h : d.nx ≤ 63) (hnullt : d.nullt = false) :
    (finished d).h = compressChain d.s d.h (finalBlocks d) := by
  rw [finished_h h]
  obtain hlt | heq | hgt := Nat.lt_trichotomy d.nx 55
  · rw [pad_of_lt hlt, finalBlocks_of_lt hlt, hnullt, Bool.false_or]
  · rw [pad_of_eq heq, finalBlocks_of_eq heq, discount_nullt, hnullt]
    rfl
  · rw [pad_of_gt hgt h, finalBlocks_of_gt hgt, compressChain_cons d.s d.h]
    simp only [compressBlock_s, compressBlock_h, discount_s, discount_h, discount_t, discount_nullt,
      discount_tail_t h, hnullt]

/-- The record of FINAL is that of the closed form (R128). -/
theorem digestRecord_eq_closedRecord (h : d.nx ≤ 63) (hnullt : d.nullt = false) :
    digestRecord d = closedRecord d := by
  rw [digestRecord, closedRecord, finished_h_eq_compressChain h hnullt]

end Table

/-- Settles O43: FINAL appends the record of the working copy, and writes nothing but `OUT` and `PC`. -/
theorem finalClosedForm : Obligations.FinalClosedForm := by
  intro s d hd hnx hnullt
  rw [exec_final_of_some hd, digestRecord_eq_closedRecord hnx hnullt]
  rfl

end Sys2Proof.Proofs

/-! PROOFS of the family other, the published digest: padding the whole message first and compressing it block by block
gives the blocks that UPDATE compressed and then those of FINAL (O47), and so do the one-shot pseudo-commands (O48). -/

namespace Sys2Proof.Proofs

open Sys2Proof.Machine Sys2Proof.Laws

/-! ## The padded message -/

/-- What the padded message has between the message and its length, for a message of `n` bytes (R128). -/
def paddingMarker (w : Width) (n : Nat) : List Byte :=
  if (119 - n % 64) % 64 = 0 then [w.domainByte]
  else 0x80 :: List.replicate ((119 - n % 64) % 64 - 1) 0 ++ [w.terminatorByte]

theorem paddedMessage_eq (w : Width) (msg : List Byte) :
    paddedMessage w msg = msg ++ (paddingMarker w msg.length ++ be64bytes (BitVec.ofNat 64 (8 * msg.length))) :=
  List.append_assoc ..

theorem paddingMarker_of_lt (w : Width) {n : Nat} (h : n % 64 < 55) :
    paddingMarker w n = 0x80 :: List.replicate (54 - n % 64) 0 ++ [w.terminatorByte] := by
  have hextra : (119 - n % 64) % 64 = 54 - n % 64 + 1 := by omega
  rw [paddingMarker, hextra, if_neg (Nat.succ_ne_zero _), Nat.add_sub_cancel]

theorem paddingMarker_of_eq (w : Width) {n : Nat} (h : n % 64 = 55) : paddingMarker w n = [w.domainByte] := by
  rw [paddingMarker, if_pos (by omega)]

/-- Where the length field does not fit the block of the message's tail, the padding fills that block and goes on in
the next. -/
theorem paddingMarker_of_gt (w : Width) {n : Nat} (h : 55 < n % 64) :
    paddingMarker w n = (0x80 :: List.replicate (63 - n % 64) 0) ++ (List.replicate 55 0 ++ [w.terminatorByte]) := by
  have hextra : (119 - n % 64) % 64 = 63 - n % 64 + 55 + 1 := by omega
  rw [paddingMarker, hextra, if_neg (Nat.succ_ne_zero _), Nat.add_sub_cancel, ← List.replicate_append_replicate,
    List.cons_append, List.append_assoc, List.cons_append]

/-! ## The blocks of the padded message -/

/-- Behind whole blocks of a stream the blocks are those of the rest. -/
theorem blockOf_append_of_length {p : List Byte} {k : Nat} (hp : p.length = 64 * k) (q : List Byte) (j : Nat) :
    blockOf (p ++ q) (k + j) = blockOf q j := by
  rw [blockOf, blockOf, Nat.mul_add, ← hp, List.drop_length_add_append]

/-- A list of 64 bytes is its own first block. -/
theorem blockOf_zero_append {p : List Byte} (hp : p.length = 64) (q : List Byte) : blockOf (p ++ q) 0 = p := by
  rw [blockOf, Nat.mul_zero, List.drop_zero, List.take_left' hp]

/-- The message's tail and all that pads it, from the last block boundary of the message on. -/
def paddedTail (w : Width) (msg : List Byte) : List Byte :=
  msg.drop (64 * (msg.length / 64)) ++
    (paddingMarker w msg.length ++ be64bytes (BitVec.ofNat 64 (8 * msg.length)))

theorem paddedMessage_eq_take_append (w : Width) (msg : List Byte) :
    paddedMessage w msg = msg.take (64 * (msg.length / 64)) ++ paddedTail w msg := by
  rw [paddedMessage_eq, paddedTail, ← List.append_assoc (msg.take _), List.take_append_drop]

/-- The blocks of the padded tail: all see the bits of the whole message, and the counter is skipped by those that start
at or behind the message's end. -/
def paddedTailBlocks (w : Width) (msg : List Byte) : List (List Byte × Counter × Bool) :=
  (List.range ((paddedTail w msg).length / 64)).map fun j =>
    (blockOf (paddedTail w msg) j, BitVec.ofNat 64 (8 * msg.length), decide (msg.length ≤ 64 * (msg.length / 64 + j)))

/-- The blocks of the padded message: whole blocks of the message, each with the bits up to its end, and then those of
the padded tail. -/
theorem paddedBlocks_eq_append (w : Width) (msg : List Byte) :
    paddedBlocks w msg =
      (List.range (msg.length / 64)).map (fun i => (blockOf msg i, BitVec.ofNat 64 (512 * (i + 1)), false)) ++
      paddedTailBlocks w msg := by
  have hwhole : (msg.take (64 * (msg.length / 64))).length = 64 * (msg.length / 64) :=
    List.length_take_of_le (by omega)
  have hcount : (paddedMessage w msg).length / 64 = msg.length / 64 + (paddedTail w msg).length / 64 := by
    rw [paddedMessage_eq_take_append, List.length_append, hwhole]
    omega
  rw [paddedBlocks, hcount, List.range_add, List.map_append, List.map_map, paddedTailBlocks]
  congr 1
  · refine List.map_congr_left fun i hi => ?_
    have hlt : i < msg.length / 64 := List.mem_range.1 hi
    have hbits : 8 * min msg.length (64 * (i + 1)) = 512 * (i + 1) := by omega
    have hflag : ¬ msg.length ≤ 64 * i := by omega
    rw [paddedMessage_eq, blockOf_append (by omega), hbits, decide_eq_false hflag]
  · refine List.map_congr_left fun j _ => ?_
    have hbits : min msg.length (64 * (msg.length / 64 + j + 1)) = msg.length := by omega
    rw [Function.comp_apply, hbits, paddedMessage_eq_take_append, blockOf_append_of_length hwhole]

/-- A padded tail of one block. -/
theorem paddedTailBlocks_of_one {w : Width} {msg : List Byte} (h : (paddedTail w msg).length = 64) :
    paddedTailBlocks w msg = [(paddedTail w msg, BitVec.ofNat 64 (8 * msg.length), decide (msg.length % 64 = 0))] := by
  have hblock := blockOf_zero_append h []
  have hflag : msg.length ≤ 64 * (msg.length / 64 + 0) ↔ msg.length % 64 = 0 := by omega
  rw [List.append_nil] at hblock
  rw [paddedTailBlocks, h]
  simp only [Nat.div_self (Nat.zero_lt_succ 63), List.range_one, List.map_cons, List.map_nil, hblock, hflag]

/-- A padded tail of two blocks. -/
theorem paddedTailBlocks_of_two {w : Width} {msg p q : List Byte} (h : paddedTail w msg = p ++ q) (hp : p.length = 64)
    (hq : q.length = 64) :
    paddedTailBlocks w msg =
      [(p, BitVec.ofNat 64 (8 * msg.length), decide (msg.length % 64 = 0)),
       (q, BitVec.ofNat 64 (8 * msg.length), true)] := by
  have hsecond : blockOf (p ++ q) 1 = blockOf (q ++ []) 0 := by
    rw [List.append_nil]
    exact blockOf_append_of_length (k := 1) hp q 0
  have hflag : msg.length ≤ 64 * (msg.length / 64 + 0) ↔ msg.length % 64 = 0 := by omega
  have hflag' : msg.length ≤ 64 * (msg.length / 64 + 1) := by omega
  rw [paddedTailBlocks, h, List.length_append, hp, hq]
  simp only [Nat.reduceAdd, Nat.reduceDiv, show List.range 2 = [0, 1] from rfl, List.map_cons, List.map_nil,
    blockOf_zero_append hp, hsecond, blockOf_zero_append hq, hflag, hflag', decide_true]

/-! ## The blocks of FINAL -/

section Absorbed
variable (w : Width) (salt : Vector Word 4) (msg : List Byte)

theorem absorb_fresh_buf :
    (absorb (Digest.fresh w salt) msg).buf = msg.drop (64 * (msg.length / 64)) := by
  rw [absorb_fresh]

theorem absorb_fresh_nx : (absorb (Digest.fresh w salt) msg).nx = msg.length % 64 := by
  rw [Digest.nx, absorb_fresh_buf, List.length_drop]
  omega

/-- `L` is the length of the message in bits, modulo 2^64 (R122). -/
theorem messageBits_absorb_fresh :
    messageBits (absorb (Digest.fresh w salt) msg) = BitVec.ofNat 64 (8 * msg.length) := by
  have hlen : 512 * (msg.length / 64) + 8 * (msg.length % 64) = 8 * msg.length := by omega
  rw [messageBits, absorb_fresh_nx, absorb_fresh, ← BitVec.ofNat_add, hlen]

/-- The blocks of the padded tail are those of the table of R128. -/
theorem finalBlocks_absorb_fresh :
    finalBlocks (absorb (Digest.fresh w salt) msg) = paddedTailBlocks w msg := by
  have hnx := absorb_fresh_nx w salt msg
  have htail : (msg.drop (64 * (msg.length / 64))).length = msg.length % 64 := by
    rw [List.length_drop]
    omega
  obtain hlt | heq | hgt := Nat.lt_trichotomy (msg.length % 64) 55
  · have hone : (paddedTail w msg).length = 64 := by
      rw [paddedTail, paddingMarker_of_lt w hlt]
      simp only [List.length_append, List.length_cons, List.length_nil, List.length_replicate, htail, be64bytes_length]
      omega
    rw [finalBlocks_of_lt (by omega), paddedTailBlocks_of_one hone, paddedTail, paddingMarker_of_lt w hlt, hnx,
      absorb_fresh_buf, messageBits_absorb_fresh, absorb_w, fresh_w, List.append_assoc (msg.drop _)]
  · have hone : (paddedTail w msg).length = 64 := by
      rw [paddedTail, paddingMarker_of_eq w heq]
      simp only [List.length_append, List.length_cons, List.length_nil, htail, be64bytes_length]
      omega
    have hflag : ¬ msg.length % 64 = 0 := by omega
    rw [finalBlocks_of_eq (by omega), paddedTailBlocks_of_one hone, paddedTail, paddingMarker_of_eq w heq,
      absorb_fresh_buf, messageBits_absorb_fresh, absorb_w, fresh_w, List.append_assoc (msg.drop _),
      decide_eq_false hflag]
  · have hflag : ¬ msg.length % 64 = 0 := by omega
    rw [finalBlocks_of_gt (by omega), hnx, absorb_fresh_buf, messageBits_absorb_fresh, absorb_w, fresh_w,
      paddedTailBlocks_of_two, decide_eq_false hflag]
    · rw [paddedTail, paddingMarker_of_gt w hgt, List.append_assoc, List.append_assoc, List.append_assoc]
    · simp only [List.length_append, List.length_cons, List.length_replicate, htail]
      omega
    · rfl

/-! ## The digest -/

/-- Compressing the whole blocks of a message from the initial vector gives the chain value of the Digest State
(R28). -/
theorem compressChain_whole_blocks :
    compressChain salt (initialVector w)
      ((List.range (msg.length / 64)).map fun i => (blockOf msg i, BitVec.ofNat 64 (512 * (i + 1)), false)) =
      (absorb (Digest.fresh w salt) msg).h := by
  have hcounter (i : Nat) : BitVec.ofNat 64 (512 * (i + 1)) - 512 = BitVec.ofNat 64 (512 * i) := by
    rw [Nat.mul_succ, BitVec.ofNat_add]
    exact BitVec.add_sub_cancel _ _
  rw [absorb_fresh, compressChain, List.foldl_map]
  simp only [hcounter]

/-- The record of FINAL for the bytes absorbed since construction or RESET is their published digest (R128). -/
theorem digestRecord_absorb_fresh :
    digestRecord (absorb (Digest.fresh w salt) msg) = publishedDigest w salt msg := by
  have hnx : (absorb (Digest.fresh w salt) msg).nx ≤ 63 := by
    rw [absorb_fresh_nx]
    omega
  have hnullt : (absorb (Digest.fresh w salt) msg).nullt = false := absorb_nullt msg _
  rw [digestRecord_eq_closedRecord hnx hnullt, closedRecord, publishedDigest, paddedBlocks_eq_append,
    ← finalBlocks_absorb_fresh w salt msg, absorb_w, absorb_s, ← compressChain_whole_blocks]
  rw [compressChain, compressChain, compressChain, List.foldl_append]
  rfl

end Absorbed

/-- Settles O47: the UPDATEs absorb the message, and the record of FINAL is that of the bytes absorbed. -/
theorem finalEmitsPublishedDigest : Obligations.FinalEmitsPublishedDigest := by
  intro s w salt is hdigest his
  obtain ⟨t, hall, -, ht⟩ := execAll_absorbs_payloads hdigest his
  refine ⟨t, hall, ?_⟩
  rw [exec_final_of_some ht, digestRecord_absorb_fresh]
  rfl

/-! ## The one-shot pseudo-commands -/

theorem execAll_append {is js : List Instr} {s t : State} (h : execAll is s = .next t) :
    execAll (is ++ js) s = execAll js t := by
  induction is generalizing s with
  | nil => cases h; rfl
  | cons i is ih =>
    obtain ⟨u, hu⟩ := exec_is_next i s
    rw [execAll_cons_of_next hu] at h
    rw [List.cons_append, execAll_cons_of_next hu, ih h]

/-- The pieces of a sequence put together are the sequence (R80). -/
theorem payloadPieces_flatten (fuel : Nat) (seq : List Byte) : (payloadPieces fuel seq).flatten = seq := by
  induction fuel generalizing seq with
  | zero => exact List.append_nil seq
  | succ fuel ih =>
    rw [payloadPieces]
    split_ifs
    · exact List.append_nil seq
    · rw [List.flatten_cons, ih, List.take_append_drop]

/-- Each piece of a sequence fits a payload (R70, R80). -/
theorem payloadPieces_fit {fuel : Nat} {seq : List Byte} (h : seq.length / 65535 ≤ fuel) :
    ∀ p ∈ payloadPieces fuel seq, p.length ≤ 65535 := by
  induction fuel generalizing seq with
  | zero =>
    intro p hp
    rw [payloadPieces, List.mem_singleton] at hp
    subst hp
    omega
  | succ fuel ih =>
    rw [payloadPieces]
    split_ifs with hfits
    · intro p hp
      exact List.mem_singleton.1 hp ▸ hfits
    · have hlong : 65535 < seq.length := Nat.lt_of_not_le hfits
      refine List.forall_mem_cons.2 ⟨List.length_take_le _ _, ih ?_⟩
      rw [List.length_drop, Config.maxPayload]
      omega

/-- The commands of an UPDATE of any length all have an encoding (R80). -/
theorem expandUpdate_wellFormed (seq : List Byte) : ∀ i ∈ expandUpdate seq, i.wellFormed = true := by
  intro i hi
  obtain ⟨p, hp, rfl⟩ := List.mem_map.1 hi
  exact decide_eq_true (payloadPieces_fit le_rfl p hp)

theorem oneShot_wellFormed {i : Instr} (h : i.wellFormed = true) (seq : List Byte) :
    ∀ j ∈ i :: expandUpdate seq ++ [.final], j.wellFormed = true :=
  List.forall_mem_append.2
    ⟨List.forall_mem_cons.2 ⟨h, expandUpdate_wellFormed seq⟩, List.forall_mem_singleton.2 rfl⟩

/-- A construction, the UPDATEs of a sequence and FINAL append the published digest of the sequence (R80, R149). -/
theorem execAll_oneShot {i : Instr} {s : State} {w : Width} {salt : Vector Word 4} {len : Nat}
    (h : exec i s = .next (construct w salt len s)) (seq : List Byte) :
    ∃ t, execAll (i :: expandUpdate seq ++ [.final]) s = .next t ∧ t.err = s.err ∧
      t.digest = some (absorb (Digest.fresh w salt) seq) ∧ t.out = s.out ++ [publishedDigest w salt seq] := by
  have hupdates := execAll_updates (s := construct w salt len s) rfl (payloadPieces (seq.length / 65535) seq)
  rw [payloadPieces_flatten] at hupdates
  refine ⟨_, (execAll_cons_of_next h).trans ((execAll_append hupdates).trans
    (execAll_cons_of_next (exec_final_of_some rfl))), rfl, rfl, ?_⟩
  rw [advance_out, emit_out, digestRecord_absorb_fresh]
  rfl

/-- Settles O48: the four expansions differ in the construction alone. -/
theorem oneShotAppendsDigest : Obligations.OneShotAppendsDigest := by
  intro s seq salt hsalt c hc
  have hsaltFits : payloadFits salt = true := decide_eq_true (show salt.length ≤ 65535 by omega)
  simp only [List.mem_cons, List.not_mem_nil, or_false] at hc
  obtain rfl | rfl | rfl | rfl := hc
  · exact ⟨oneShot_wellFormed rfl seq, execAll_oneShot (exec_init256 s) seq⟩
  · exact ⟨oneShot_wellFormed rfl seq, execAll_oneShot (exec_init224 s) seq⟩
  · exact ⟨oneShot_wellFormed (i := .init256S salt) hsaltFits seq,
      execAll_oneShot (exec_init256S_of_length_eq hsalt s) seq⟩
  · exact ⟨oneShot_wellFormed (i := .init224S salt) hsaltFits seq,
      execAll_oneShot (exec_init224S_of_length_eq hsalt s) seq⟩

end Sys2Proof.Proofs
